-- ==== Sys2Proof/Word.lean ====
section
/-! DEFINITION. The word types of the ctrlbox serial-link core: a byte is 8 bits (spec/00_scope.md R13), a command or result word 24 (spec/30_encoding.md R115, R119). -/

namespace Sys2Proof

/-- A byte, bit 7 its most significant bit (R13, R14). -/
abbrev Byte := BitVec 8

/-- A command word or a result word (R115, R119). -/
abbrev CmdWord := BitVec 24

end Sys2Proof
end

