-- ==== Sys2Proof/Config.lean ====
section
/-! DEFINITION. The construction parameters of the block (spec/00_scope.md R11, spec/10_state.md R49): fixed when the block is built, written by no operation. -/

namespace Sys2Proof

/-- A channel: a kind tag and an index (R3: analog 0 to 5, digital 0 to 9). -/
inductive Channel where
  | analog (i : Fin 6)
  | digital (j : Fin 10)
  deriving DecidableEq, Repr

/-- What the environment delivers to RXI (R81). -/
inductive WireModel where
  /-- The RX stream is any sequence of bytes. -/
  | free
  /-- The RX stream is the TX stream, in order, each byte once. -/
  | loopback
  /-- The TX stream with any bytes deleted and any bytes replaced. -/
  | lossyLoopback
  deriving DecidableEq, Repr

/-- The parameters of R11 whose status is "parameter". -/
structure Config where
  /-- C_RX, inbound ring capacity in slots. -/
  cRx : Nat
  /-- C_TX, outbound ring capacity in slots. -/
  cTx : Nat
  /-- W, weight of the new sample. -/
  w : Nat
  /-- DEN, the smoothing denominator. -/
  den : Nat
  /-- DEB, the debounce window in sampling cycles. -/
  deb : Nat
  /-- ACT_CYCLES, the activity hold in sampling cycles. -/
  actCycles : Nat
  /-- BAUD, the wire rate; no rule reads it (R326). -/
  baud : Nat
  /-- SCAN_ORDER, the order in which a sampling cycle visits the channels (R193). -/
  scanOrder : List Channel
  /-- WIRE_MODEL (R81). -/
  wireModel : WireModel
  deriving DecidableEq, Repr

/-- The 16 channels in the default scan order: A0..A5, then D0..D9 (R11, R193). -/
def Config.channels : List Channel :=
  (List.finRange 6).map Channel.analog ++ (List.finRange 10).map Channel.digital

/-- The defaults of R11. -/
def Config.default : Config where
  cRx := 128
  cTx := 32
  w := 100
  den := 1000
  deb := 10
  actCycles := 5
  baud := 500000
  scanOrder := Config.channels
  wireModel := .free

/-- RAW_MAX, the largest raw analog reading, fixed by the source (R11). -/
def Config.rawMax : Nat := 1023

/-- The constraints a configuration must meet (R11). -/
structure Config.Valid (c : Config) : Prop where
  cRx_min : 2 ≤ c.cRx
  cRx_max : c.cRx ≤ 65536
  cTx_min : 2 ≤ c.cTx
  cTx_max : c.cTx ≤ 65536
  w_pos : 0 < c.w
  w_le_den : c.w ≤ c.den
  deb_pos : 1 ≤ c.deb
  act_pos : 1 ≤ c.actCycles
  scan : c.scanOrder.Perm Config.channels

end Sys2Proof
end

