-- ==== Sys2Proof/Syntax.lean ====
section
/-! DEFINITION. The instructions of spec/opcode_table.json, one constructor per row; the agents that issue them; and the two encodings' carriers (spec/30_encoding.md R100). -/

namespace Sys2Proof

/-- The four agents (spec/00_scope.md R10, spec/60_exceptions.md R290: FG = 0, TXI = 1, RXI = 2, RD = 3). -/
inductive Agent where
  | fg | txi | rxi | rd
  deriving DecidableEq, Repr

/-- One constructor per row of spec/opcode_table.json. -/
inductive Instr where
  /-- RXPUSH b (R142). -/
  | rxpush (b : BitVec 8)
  /-- RXPOP (R144). -/
  | rxpop
  /-- RXAVAIL (R146). -/
  | rxavail
  /-- RXFLUSH (R148). -/
  | rxflush
  /-- TXPUSH b (R155). -/
  | txpush (b : BitVec 8)
  /-- TXPOP (R159). -/
  | txpop
  /-- TXAVAIL (R163). -/
  | txavail
  /-- TXFLUSH (R165). -/
  | txflush
  /-- ENCA ch, v (R221). -/
  | enca (ch : BitVec 4) (v : BitVec 10)
  /-- ENCD ch, v (R222). -/
  | encd (ch : BitVec 4) (v : BitVec 1)
  /-- SMPA ch, raw (R181). -/
  | smpa (ch : BitVec 4) (raw : BitVec 10)
  /-- SMPD ch, raw (R185). -/
  | smpd (ch : BitVec 4) (raw : BitVec 1)
  /-- CYCEND (R190). -/
  | cycend
  /-- DECB b (R241). -/
  | decb (b : BitVec 8)
  /-- DECNEXT (R246). -/
  | decnext
  /-- A command word with OP = 0x0, the other 20 bits as they stand (R116, R118). -/
  | reservedOp0 (low : BitVec 20)
  /-- An analog header byte, channel field c (R101). -/
  | hdrA (c : BitVec 6)
  /-- A digital header byte, channel field c (R101). -/
  | hdrD (c : BitVec 6)
  /-- A payload byte, 7-bit group p (R101). -/
  | payload (p : BitVec 7)
  /-- An analog packet: channel, high group, low group (R105). -/
  | pktA (c : BitVec 6) (h : BitVec 7) (l : BitVec 7)
  /-- A digital packet: channel, value (R106). -/
  | pktD (c : BitVec 6) (v : BitVec 7)
  deriving DecidableEq, Repr

/-- The block has two encodings (R100): a 24-bit command word on an agent's command port, or bytes of the wire in wire order. -/
inductive Code where
  | command (w : CmdWord)
  | wire (bytes : List Byte)
  deriving DecidableEq, Repr

end Sys2Proof
end

