-- ==== Sys2Proof/WellFormed.lean ====
section
/-! DEFINITION. The operand ranges the spec admits beyond the field widths: the channel limits of spec/30_encoding.md R118 ("Analog: 0–5; Digital: 0–9"). -/

namespace Sys2Proof

/-- ENCA and SMPA need CH at most 5, ENCD and SMPD at most 9 (R117, R118); every other field admits all its values. -/
def Instr.wellFormed : Instr → Bool
  | .enca ch _ | .smpa ch _ => ch.toNat ≤ 5
  | .encd ch _ | .smpd ch _ => ch.toNat ≤ 9
  | .rxpush _ | .rxpop | .rxavail | .rxflush | .txpush _ | .txpop | .txavail | .txflush
  | .cycend | .decb _ | .decnext | .reservedOp0 _
  | .hdrA _ | .hdrD _ | .payload _ | .pktA _ _ _ | .pktD _ _ => true

/-- The instruction lies in the ranges the spec admits. -/
abbrev WellFormed (i : Instr) : Prop := i.wellFormed = true

end Sys2Proof
end

