-- ==== Sys2Proof/Decode.lean ====
section
/-! DEFINITION. The decoder, total on every command word and every list of wire bytes, rejecting by name, and after it the encoder, both from the tables of spec/30_encoding.md (R101, R105, R106, R115 to R118). -/

namespace Sys2Proof

/-- Why a code is no row's instruction. -/
inductive DecodeError where
  /-- A command word with a bit set outside the fields its operation uses (R118). -/
  | reservedBits
  /-- ENCA or SMPA with CH > 5, ENCD or SMPD with CH > 9 (R118). -/
  | channelOutOfRange
  /-- Wire bytes that are neither one byte nor one whole packet (R101, R107). -/
  | notAWireUnit
  deriving DecidableEq, Repr

/-! ## Decoding -/

/-- OP, bits 23..20 (R115). -/
def opField (w : CmdWord) : BitVec 4 := w.extractLsb' 20 4

/-- CH, bits 19..16 (R115). -/
def chField (w : CmdWord) : BitVec 4 := w.extractLsb' 16 4

/-- DATA, bits 9..0 (R115). -/
def dataField (w : CmdWord) : BitVec 10 := w.extractLsb' 0 10

/-- A byte operand, DATA[7:0] (R115). -/
def byteField (w : CmdWord) : BitVec 8 := w.extractLsb' 0 8

/-- A 1-bit operand, DATA[0] (R115). -/
def bitField (w : CmdWord) : BitVec 1 := w.extractLsb' 0 1

/-- One row of R117: the word is the row's when `word & mask = match` and its channel is in range. -/
def rowInstr (pattern mask : CmdWord) (i : Instr) (w : CmdWord) : Except DecodeError Instr :=
  if w &&& mask = pattern then
    if i.wellFormed then .ok i else .error .channelOutOfRange
  else .error .reservedBits

/-- The instruction of a command word (R116 to R118). -/
def decodeCommand (w : CmdWord) : Except DecodeError Instr :=
  match (opField w).toNat with
  | 0 => .ok (.reservedOp0 (w.extractLsb' 0 20))
  | 1 => rowInstr 0x100000 0xFFFF00 (.rxpush (byteField w)) w
  | 2 => rowInstr 0x200000 0xFFFFFF .rxpop w
  | 3 => rowInstr 0x300000 0xFFFFFF .rxavail w
  | 4 => rowInstr 0x400000 0xFFFFFF .rxflush w
  | 5 => rowInstr 0x500000 0xFFFF00 (.txpush (byteField w)) w
  | 6 => rowInstr 0x600000 0xFFFFFF .txpop w
  | 7 => rowInstr 0x700000 0xFFFFFF .txavail w
  | 8 => rowInstr 0x800000 0xFFFFFF .txflush w
  | 9 => rowInstr 0x900000 0xF0FC00 (.enca (chField w) (dataField w)) w
  | 10 => rowInstr 0xA00000 0xF0FFFE (.encd (chField w) (bitField w)) w
  | 11 => rowInstr 0xB00000 0xF0FC00 (.smpa (chField w) (dataField w)) w
  | 12 => rowInstr 0xC00000 0xF0FFFE (.smpd (chField w) (bitField w)) w
  | 13 => rowInstr 0xD00000 0xFFFFFF .cycend w
  | 14 => rowInstr 0xE00000 0xFFFF00 (.decb (byteField w)) w
  | _ => rowInstr 0xF00000 0xFFFFFF .decnext w

/-- The class of a wire byte, by its bits 7 and 6 (R101); every byte has one. -/
def decodeByteClass (b : Byte) : Instr :=
  if b.getLsbD 7 then
    if b.getLsbD 6 then .hdrD (b.extractLsb' 0 6) else .hdrA (b.extractLsb' 0 6)
  else .payload (b.extractLsb' 0 7)

/-- The instruction of wire bytes in wire order: one byte of a class (R101), or one whole packet (R105, R106). -/
def decodeWire : List Byte → Except DecodeError Instr
  | [b] => .ok (decodeByteClass b)
  | [b0, b1] =>
    match decodeByteClass b0, decodeByteClass b1 with
    | .hdrD c, .payload v => .ok (.pktD c v)
    | _, _ => .error .notAWireUnit
  | [b0, b1, b2] =>
    match decodeByteClass b0, decodeByteClass b1, decodeByteClass b2 with
    | .hdrA c, .payload h, .payload l => .ok (.pktA c h l)
    | _, _, _ => .error .notAWireUnit
  | _ => .error .notAWireUnit

/-- The instruction of a code: which encoding it is in is known from where it stands (R100). -/
def decode : Code → Except DecodeError Instr
  | .command w => decodeCommand w
  | .wire bs => decodeWire bs

/-- Where a row's word of `nbits` bits, numbered as spec/opcode_table.json numbers them, belongs. The two encodings share
24-bit words (TXFLUSH's word is also a PKT_A word): a word that is a legal command is read as the command, any other
PKT_A word as the packet. The table writes a packet with its first byte in the high bits.
DESIGN CHOICE (log 11). -/
def tableCode (nbits w : Nat) : Code :=
  if nbits = 8 then .wire [BitVec.ofNat 8 w]
  else if nbits = 16 then .wire [BitVec.ofNat 8 (w >>> 8), BitVec.ofNat 8 w]
  else
    match decodeCommand (BitVec.ofNat 24 w),
        decodeWire [BitVec.ofNat 8 (w >>> 16), BitVec.ofNat 8 (w >>> 8), BitVec.ofNat 8 w] with
    | .error _, .ok _ => .wire [BitVec.ofNat 8 (w >>> 16), BitVec.ofNat 8 (w >>> 8), BitVec.ofNat 8 w]
    | _, _ => .command (BitVec.ofNat 24 w)

/-- The instruction the decoder reads from a row's word, as the opcode table numbers its bits. -/
def decodeTableWord (nbits w : Nat) : Option Instr :=
  if nbits = 8 ∨ nbits = 16 ∨ nbits = 24 then
    match decode (tableCode nbits w) with
    | .ok i => some i
    | .error _ => none
  else none

/-! ## Encoding -/

/-- A command word from its fields: OP, CH, Z = 0, DATA (R115). -/
def opWord (op ch : BitVec 4) (data : BitVec 10) : CmdWord := op ++ ch ++ 0#6 ++ data

/-- The command word of a command (R116, R117); a wire row has none and answers the reserved word. -/
def commandWord : Instr → CmdWord
  | .rxpush b => opWord 0x1 0 (b.setWidth 10)
  | .rxpop => opWord 0x2 0 0
  | .rxavail => opWord 0x3 0 0
  | .rxflush => opWord 0x4 0 0
  | .txpush b => opWord 0x5 0 (b.setWidth 10)
  | .txpop => opWord 0x6 0 0
  | .txavail => opWord 0x7 0 0
  | .txflush => opWord 0x8 0 0
  | .enca ch v => opWord 0x9 ch v
  | .encd ch v => opWord 0xA ch (v.setWidth 10)
  | .smpa ch raw => opWord 0xB ch raw
  | .smpd ch raw => opWord 0xC ch (raw.setWidth 10)
  | .cycend => opWord 0xD 0 0
  | .decb b => opWord 0xE 0 (b.setWidth 10)
  | .decnext => opWord 0xF 0 0
  | .reservedOp0 low => 0#4 ++ low
  | .hdrA _ | .hdrD _ | .payload _ | .pktA _ _ _ | .pktD _ _ => 0

/-- An analog header byte, `10cccccc` (R101). -/
def hdrAByte (c : BitVec 6) : Byte := 0b10#2 ++ c

/-- A digital header byte, `11cccccc` (R101). -/
def hdrDByte (c : BitVec 6) : Byte := 0b11#2 ++ c

/-- A payload byte, `0ppppppp` (R101). -/
def payloadByte (p : BitVec 7) : Byte := 0#1 ++ p

/-- The encoding of an instruction: its command word, or its wire bytes in wire order (R101, R105, R106). -/
def encode : Instr → Code
  | .hdrA c => .wire [hdrAByte c]
  | .hdrD c => .wire [hdrDByte c]
  | .payload p => .wire [payloadByte p]
  | .pktA c h l => .wire [hdrAByte c, payloadByte h, payloadByte l]
  | .pktD c v => .wire [hdrDByte c, payloadByte v]
  | i => .command (commandWord i)

end Sys2Proof
end

