-- ==== Sys2Proof/Machine/State.lean ====
section
/-! DEFINITION. The state of the block as plain data (spec/10_state.md R30), the model bookkeeping the spec asks for (R58, R59), the ports (spec/30_encoding.md R114) and the environment's own data (log 9), with State.reset (R51). -/

namespace Sys2Proof.Machine

/-- The two rings (R32, R33). -/
inductive RingId where
  | rx | tx
  deriving DecidableEq, Repr

/-- One ring: storage as (slot, byte) pairs, slots strictly rising, an unlisted slot holding no value (R52; log 2); the next write slot; the next read slot (R32, R33). -/
structure Ring where
  buf : List Host.Cell
  head : Nat
  tail : Nat
  deriving DecidableEq, Repr

/-- What a pop finds (R143). -/
inductive PopResult where
  /-- The ring is empty. -/
  | empty
  /-- Slot `tail` holds a byte: the byte and the ring after it. -/
  | byte (b : Byte) (r : Ring)
  /-- Slot `tail` of a non-empty ring was never written: no reachable state (R52; log 2). -/
  | unwritten (slot : Nat)
  deriving DecidableEq, Repr

/-- The decoder's states (R45). -/
inductive DecState where
  | idle | awaitAnalogHigh | awaitAnalogLow | awaitDigitalValue
  deriving DecidableEq, Repr

/-- An event, `Analog(ch, v)` or `Digital(ch, v)` (R112). -/
inductive Event where
  | analog (ch : BitVec 6) (v : BitVec 14)
  | digital (ch : BitVec 6) (v : BitVec 7)
  deriving DecidableEq, Repr

/-- An entry of the observation history (R59, R310). -/
inductive Observation where
  | rxDrop (b : Byte)
  | txOut (b : Byte)
  | event (e : Event)
  | emit (e : Event)
  | endOfStream
  | reset
  deriving DecidableEq, Repr

/-- Why an operation is held; these reasons exactly (R54). -/
inductive HoldReason where
  | txFull | encBusy | rxEmpty
  deriving DecidableEq, Repr

/-- `raise` has one fault (R18, R282). -/
inductive Violation where
  | ownershipViolation (op : Instr) (agent : Agent)
  deriving DecidableEq, Repr

/-- The reasons of `refuse` (R118, R247). -/
inductive RefuseReason where
  | illegalCommand (w : CmdWord)
  | afterEnd
  deriving DecidableEq, Repr

/-- One operation of an agent's stream: a code as it stands on the port, or a SMPA or SMPD of the CYCLE macro without operands, whose raw value is read from `ain` or `din` when it is performed (R127). -/
inductive Item where
  | code (c : Code)
  | sampleA (ch : Fin 6)
  | sampleD (ch : Fin 10)
  deriving DecidableEq, Repr

/-- What an agent's pending operation is: an operation of its stream, or FG's stage push (R54, R224). -/
inductive PendingOp where
  | stage
  | item (it : Item)
  deriving DecidableEq, Repr

/-- A held operation and its reason (R54). -/
structure Pending where
  op : PendingOp
  reason : HoldReason
  deriving DecidableEq, Repr

/-- One value for each agent. -/
structure PerAgent (α : Type) where
  fg : α
  txi : α
  rxi : α
  rd : α
  deriving DecidableEq, Repr

/-- The value of one agent. -/
def PerAgent.get {α : Type} (p : PerAgent α) : Agent → α
  | .fg => p.fg
  | .txi => p.txi
  | .rxi => p.rxi
  | .rd => p.rd

/-- The same with one agent's value replaced. -/
def PerAgent.set {α : Type} (p : PerAgent α) (a : Agent) (x : α) : PerAgent α :=
  match a with
  | .fg => { p with fg := x }
  | .txi => { p with txi := x }
  | .rxi => { p with rxi := x }
  | .rd => { p with rd := x }

/-- The same value for every agent. -/
def PerAgent.all {α : Type} (x : α) : PerAgent α := ⟨x, x, x, x⟩

/-- One move of the interleaving: an agent's step, the stage push, or a liberty of the environment (R84, R126, R294; log 9, log 14). -/
inductive Move where
  /-- The agent is scheduled: FG's step is the stage push while the stage is busy (R224, R156); otherwise the agent issues. -/
  | run (a : Agent)
  /-- The agent presents an operation: its pending one again, or else the next of its stream (R114, R126). -/
  | issue (a : Agent)
  /-- The stage push `FG:stage` (R224). -/
  | stage
  /-- `rst` is asserted; `eos` is the end-of-stream input the environment presents afterwards (R310, R294). -/
  | rst (eos : Bool)
  /-- `eos` rises (R294). -/
  | raiseEos
  /-- The raw analog input i takes a value (R294). -/
  | setAin (i : Fin 6) (v : BitVec 10)
  /-- The raw digital input j takes a level (R294). -/
  | setDin (j : Fin 10) (v : BitVec 1)
  /-- The agent's stream grows by one operation (R31). -/
  | supply (a : Agent) (it : Item)
  /-- The next byte of the wire is offered to RXI unchanged (R81). -/
  | deliver
  /-- The next byte of the wire is lost (R81, LossyLoopback). -/
  | lose
  /-- The next byte of the wire is offered to RXI as another byte (R81, LossyLoopback). -/
  | corrupt (b : Byte)
  deriving DecidableEq, Repr

/-- The state of the machine. -/
structure State where
  /-- The construction parameters; no step writes them (R49; log 1). -/
  cfg : Config
  /-- The inbound ring (R32). -/
  rx : Ring
  /-- The outbound ring (R33). -/
  tx : Ring
  /-- raw_latest[0..5] (R37). -/
  rawLatest : Vector (BitVec 10) 6
  /-- acc[0..5] (R38). -/
  acc : Vector (BitVec 10) 6
  /-- rep[0..9] (R39). -/
  rep : Vector (BitVec 1) 10
  /-- dtimer[0..9] (R40). -/
  dtimer : Vector Nat 10
  /-- act_timer (R41). -/
  actTimer : Nat
  /-- cyc_emit (R42). -/
  cycEmit : Bool
  /-- enc_buf[0..2] (R44). -/
  encBuf : Vector Byte 3
  /-- enc_len (R44). -/
  encLen : Nat
  /-- enc_pos (R44). -/
  encPos : Nat
  /-- dec_state (R45). -/
  decState : DecState
  /-- dec_ch (R46). -/
  decCh : BitVec 6
  /-- dec_hi (R47). -/
  decHi : BitVec 7
  /-- rd_done (R55). -/
  rdDone : Bool
  /-- Each agent's pending (held) operation (R30, R54). -/
  pending : PerAgent (Option Pending)
  /-- The fault latch (R58): clear, or the violation that set it (log 5). -/
  faultLatch : Option Violation
  /-- The refusal latch (R58): clear, or the reason that set it (log 5). -/
  refusalLatch : Option RefuseReason
  /-- The observation history, oldest first (R59). -/
  history : List Observation
  /-- The raw analog inputs (R114). -/
  ain : Vector (BitVec 10) 6
  /-- The raw digital inputs (R114). -/
  din : Vector (BitVec 1) 10
  /-- The end-of-stream input (R114). -/
  eos : Bool
  /-- Each agent's result port: the result word of its latest performed operation (R114, R119; log 7). -/
  result : PerAgent (Option CmdWord)
  /-- The agent on whose command port the operation being run was presented (R114; log 8). -/
  issuer : Agent
  /-- Each agent's operations still to issue (R31, R126; log 9). -/
  streams : PerAgent (List Item)
  /-- The moves still to come, the interleaving (R84, R126; log 9). -/
  schedule : List Move
  /-- The TX stream's bytes that no delivery has taken (R71, R82; log 14). -/
  wire : List Byte
  deriving DecidableEq, Repr

/-- Why the machine stops with a fault. -/
inductive Fault where
  /-- Raised by RXPOP, TXPOP and DECNEXT when the ring is not empty and slot `tail` was never written; no state reached from reset is one (R52), and stopping there is safe (log 2). -/
  | unwrittenSlot (ring : RingId) (slot : Nat)
  deriving DecidableEq, Repr

/-- Why a step has no meaning. -/
inductive Refusal where
  /-- Answered by an arm of `exec` whose instruction has no meaning yet; safe. No arm does. -/
  | notModelled (mnemonic : String)
  /-- Answered by the step when a stream holds wire bytes that are neither one byte nor one whole packet: no row of the opcode table; safe (log 10). -/
  | notAWireUnit
  /-- Answered by the step for an environment move WIRE_MODEL does not admit (R81); safe (log 14). -/
  | wireModelForbids
  deriving DecidableEq, Repr

/-- An empty ring at slot 0 with no value in any slot (R51). -/
def Ring.reset : Ring := ⟨[], 0, 0⟩

/-- The machine right after reset (R51), with the default parameters (R11); the fields R51 does not name hold the values of logs 1, 3, 7, 8, 9, 13, 14. -/
def State.reset : State where
  cfg := Config.default
  rx := Ring.reset
  tx := Ring.reset
  rawLatest := Vector.replicate 6 0
  acc := Vector.replicate 6 0
  rep := Vector.replicate 10 0
  dtimer := Vector.replicate 10 0
  actTimer := 0
  cycEmit := false
  encBuf := Vector.replicate 3 0
  encLen := 0
  encPos := 0
  decState := .idle
  decCh := 0
  decHi := 0
  rdDone := false
  pending := PerAgent.all none
  faultLatch := none
  refusalLatch := none
  history := []
  ain := Vector.replicate 6 0
  din := Vector.replicate 10 0
  eos := false
  result := PerAgent.all none
  issuer := .fg
  streams := PerAgent.all []
  schedule := []
  wire := []

end Sys2Proof.Machine
end

