-- ==== Sys2Proof/Machine/Flags.lean ====
section
/-! DEFINITION. The derived one-bit conditions and counts. The block has no flags register (spec/40_ring_transport.md R140, spec/10_state.md R48): full, empty, occupancy (R36), stage busy (R44) and activity_out (R43) are computed from the state. -/

namespace Sys2Proof.Machine

/-- The occupancy of a ring of capacity C, `(head + C − tail) mod C` (R36, R145). -/
def Ring.occ (C : Nat) (r : Ring) : Nat := (r.head + C - r.tail) % C

/-- The ring is empty: head = tail (R36). -/
def Ring.isEmpty (r : Ring) : Bool := r.head = r.tail

/-- The ring is full: (head + 1) mod C = tail (R36). -/
def Ring.isFull (C : Nat) (r : Ring) : Bool := (r.head + 1) % C = r.tail

/-- The encoder output stage is busy: enc_pos < enc_len (R44). -/
def stageBusy (s : State) : Bool := s.encPos < s.encLen

/-- The activity output, `act_timer ≠ 0` (R43). -/
def activityOut (s : State) : Bool := s.actTimer ≠ 0

/-- The 2-bit code of a decoder state (R45); no operation reads it. -/
def DecState.code : DecState → BitVec 2
  | .idle => 0
  | .awaitAnalogHigh => 1
  | .awaitAnalogLow => 2
  | .awaitDigitalValue => 3

end Sys2Proof.Machine
end

