-- ==== Sys2Proof/Machine/Operands.lean ====
section
/-! DEFINITION. Operand forms: channel operands as indexes of the per-channel arrays, events as result words and as wire bytes, agents' identifiers and the ownership table. -/

namespace Sys2Proof.Machine

/-- The analog array index of a channel operand; the legality check has excluded CH > 5 (R118). -/
def analogIx (ch : BitVec 4) : Fin 6 := Fin.ofNat 6 ch.toNat

/-- The digital array index of a channel operand; the legality check has excluded CH > 9 (R118). -/
def digitalIx (ch : BitVec 4) : Fin 10 := Fin.ofNat 10 ch.toNat

/-- The result word of an event: V = 1, K, ch, E = 0, 0, v (R112). -/
def eventWord : Event → CmdWord
  | .analog ch v => 0b10#2 ++ ch ++ 0#2 ++ v
  | .digital ch v => 0b11#2 ++ ch ++ 0#9 ++ v

/-- The result word of a decoding step: the event's word, or 0 when none (R119). -/
def eventResult : Option Event → CmdWord
  | none => 0
  | some e => eventWord e

/-- The end-of-stream word (R119, R246). -/
def endOfStreamWord : CmdWord := 0x008000

/-- The result word of a pop that read a byte: bit 8 set, the byte in bits 7..0 (R119). -/
def popWord (b : Byte) : CmdWord := 0x100#24 ||| b.setWidth 24

/-- The header byte of an event (R223). -/
def headerByte : Event → Byte
  | .analog ch _ => 0x80 ||| ch.setWidth 8
  | .digital ch _ => 0xC0 ||| ch.setWidth 8

/-- The payload bytes of an event in wire order (R223): the analog value's high 7-bit group first (R73). -/
def payloadBytes : Event → List Byte
  | .analog _ v => [(v >>> 7).setWidth 8, (v &&& 0x7F).setWidth 8]
  | .digital _ v => [v.setWidth 8]

/-- The wire bytes of an event in wire order (R105, R106, R223). -/
def wireBytes (e : Event) : List Byte := headerByte e :: payloadBytes e

/-- Agent identifiers (R290). -/
def agentId : Agent → Nat
  | .fg => 0
  | .txi => 1
  | .rxi => 2
  | .rd => 3

/-- The agents that may issue an operation (R281). The wire bytes are the decoder's, so RD's (R240; log 10); the reserved
word is refused before ownership is looked at (R283). -/
def owners : Instr → List Agent
  | .rxpush _ => [.rxi]
  | .rxpop | .rxflush => [.rd]
  | .txpush _ => [.fg]
  | .txpop | .txflush => [.txi]
  | .enca _ _ | .encd _ _ | .smpa _ _ | .smpd _ _ | .cycend => [.fg]
  | .decb _ | .decnext => [.rd]
  | .rxavail | .txavail => [.fg, .txi, .rxi, .rd]
  | .hdrA _ | .hdrD _ | .payload _ | .pktA _ _ _ | .pktD _ _ => [.rd]
  | .reservedOp0 _ => []

/-- The agent owns the operation (R281). -/
def owns (i : Instr) (a : Agent) : Bool := (owners i).contains a

end Sys2Proof.Machine
end

