-- ==== Sys2Proof/Machine/Ops.lean ====
section
/-! DEFINITION. The named operations every meaning is written over: storage, the ring primitives (spec/40_ring_transport.md R141, R143, R147), the outcomes of spec/00_scope.md R18 (complete, hold, raise, refuse, record), the order of checks (spec/60_exceptions.md R283), the encoder stage (spec/42_encoder.md R223), the decoder (spec/43_decoder.md R241, R247) and reset (spec/70_reset_and_hazards.md R310). The block has no exception to enter or leave (R270): `raise` and `refuse` set a latch and change nothing else. -/

namespace Sys2Proof.Machine

/-! ## Storage (R17, R70) -/

/-- The canonical form of storage: slots strictly rising. An unlisted slot has no value, so no entry can equal what an unlisted slot reads as. -/
abbrev Memory.wf (m : List Host.Cell) : Prop := m.Pairwise (fun x y => x.1 < y.1)

/-- `MemRead`: the byte of a slot, or no value when nothing has written it (R17, R52). -/
def Memory.read : List Host.Cell → Nat → Option Byte
  | [], _ => none
  | (a, b) :: m, k => if a = k then some b else Memory.read m k

/-- `MemWrite` (R17). -/
def Memory.write : List Host.Cell → Nat → Byte → List Host.Cell
  | [], k, v => [(k, v)]
  | (a, b) :: m, k, v =>
    if k < a then (k, v) :: (a, b) :: m
    else if k = a then (k, v) :: m
    else (a, b) :: Memory.write m k v

/-! ## Ring primitives -/

/-- The accepting branch of `RingPush`: the slot is written, then head advances (R141, R85). -/
def Ring.put (C : Nat) (b : Byte) (r : Ring) : Ring :=
  { r with buf := Memory.write r.buf r.head b, head := (r.head + 1) % C }

/-- `RingPush`: whether the byte was accepted, and the ring after (R141). -/
def Ring.push (C : Nat) (b : Byte) (r : Ring) : Bool × Ring :=
  if r.isFull C then (false, r) else (true, r.put C b)

/-- `RingPop` (R143). -/
def Ring.pop (C : Nat) (r : Ring) : PopResult :=
  if r.isEmpty then .empty
  else
    match Memory.read r.buf r.tail with
    | some b => .byte b { r with tail := (r.tail + 1) % C }
    | none => .unwritten r.tail

/-- `RingFlush`: tail takes head's value, storage is not cleared (R147). -/
def Ring.flush (r : Ring) : Ring := { r with tail := r.head }

/-! ## Outcomes (R18) -/

/-- `record`: append an entry to the observation history (R18, R59). -/
def record (o : Observation) (s : State) : State := { s with history := s.history ++ [o] }

/-- The operation is performed: its result word stands on the issuer's result port and nothing of the issuer is pending (R114, R119). -/
def complete (w : CmdWord) (s : State) : State :=
  { s with result := s.result.set s.issuer (some w), pending := s.pending.set s.issuer none }

/-- `hold`: the operation performs nothing and stays pending with its reason (R18, R54). -/
def hold (i : Instr) (why : HoldReason) (s : State) : State :=
  { s with pending := s.pending.set s.issuer (some ⟨.item (.code (encode i)), why⟩) }

/-- `raise`: the fault latch is set and the operation performs nothing; the first violation stays in the latch (R18, R58, R282; log 5). -/
def raiseViolation (v : Violation) (s : State) : State :=
  { s with faultLatch := s.faultLatch.or (some v), pending := s.pending.set s.issuer none }

/-- `refuse`: the refusal latch is set and the operation performs nothing; the first reason stays in the latch (R18, R58; log 5). -/
def refuse (why : RefuseReason) (s : State) : State :=
  { s with refusalLatch := s.refusalLatch.or (some why), pending := s.pending.set s.issuer none }

/-- The checks every operation makes before its own holds and effect, in the order of R283: (1) illegal word, (2) ownership,
(3) RD after end of stream, (4) FG while the encoder stage is busy. -/
def guarded (i : Instr) (s : State) (body : State → Host.Outcome State Fault Refusal) :
    Host.Outcome State Fault Refusal :=
  if i.wellFormed = false then .next (refuse (.illegalCommand (commandWord i)) s)
  else if owns i s.issuer = false then .next (raiseViolation (.ownershipViolation i s.issuer) s)
  else if s.issuer = .rd ∧ s.rdDone = true then .next (refuse .afterEnd s)
  else if s.issuer = .fg ∧ stageBusy s = true then .next (hold i .encBusy s)
  else body s

/-! ## Arithmetic -/

/-- `sat_dec` (R15). -/
def satDec (t : Nat) : Nat := t - 1

/-- The smoothed value, exact on naturals with floor division, as a 10-bit register value (R181, R184). -/
def smooth (c : Config) (raw acc : BitVec 10) : BitVec 10 :=
  BitVec.ofNat 10 ((raw.toNat * c.w + acc.toNat * (c.den - c.w)) / c.den)

/-! ## Encoder output stage and emission -/

/-- `EncLoad(e)` (R223): the stage takes the wire bytes of e; a digital event leaves enc_buf[2] as it is. -/
def encLoad (e : Event) (s : State) : State :=
  match e with
  | .analog _ v =>
    { s with encBuf := #v[headerByte e, (v >>> 7).setWidth 8, (v &&& 0x7F).setWidth 8], encLen := 3, encPos := 0 }
  | .digital _ v =>
    { s with encBuf := #v[headerByte e, v.setWidth 8, s.encBuf[2]], encLen := 2, encPos := 0 }

/-- `emit_sample(e)` (R182). -/
def emitSample (e : Event) (s : State) : State :=
  encLoad e (record (.emit e) { s with cycEmit := true })

/-! ## Decoder -/

/-- The decoder back in Idle with its registers cleared (R241, R247). -/
def decoderIdle (s : State) : State := { s with decState := .idle, decCh := 0, decHi := 0 }

/-- A header byte, in any state (R241, R242). -/
def decodeHeader (b : Byte) (s : State) : State :=
  { s with
    decCh := b.extractLsb' 0 6
    decHi := 0
    decState := if b.getLsbD 6 then .awaitDigitalValue else .awaitAnalogHigh }

/-- A payload byte's 7-bit group, in the state the decoder is in (R241, R243 to R245). -/
def decodePayload (p : BitVec 7) (s : State) : State × Option Event :=
  match s.decState with
  | .idle => (s, none)
  | .awaitAnalogHigh => ({ s with decHi := p, decState := .awaitAnalogLow }, none)
  | .awaitAnalogLow =>
    let e := Event.analog s.decCh ((s.decHi.setWidth 14 <<< 7) ||| p.setWidth 14)
    (record (.event e) (decoderIdle s), some e)
  | .awaitDigitalValue =>
    let e := Event.digital s.decCh p
    (record (.event e) (decoderIdle s), some e)

/-- `Decode(b)`: the state after and the event emitted, if any (R241, R248). -/
def decodeByte (b : Byte) (s : State) : State × Option Event :=
  if b.getLsbD 7 then (decodeHeader b s, none) else decodePayload (b.extractLsb' 0 7) s

/-- The decoder fed several bytes in order: the state after, and the event of the last byte, if any (R249). -/
def decodeBytes : List Byte → State → State × Option Event
  | [], s => (s, none)
  | [b], s => decodeByte b s
  | b :: bs, s => decodeBytes bs (decodeByte b s).1

/-- `end_of_stream()` (R247). -/
def endOfStream (s : State) : State :=
  record .endOfStream { decoderIdle s with rdDone := true }

/-- RD feeds the decoder bytes and takes the last byte's event as its result (R241, R112). -/
def feedDecoder (bs : List Byte) (s : State) : State :=
  complete (eventResult (decodeBytes bs s).2) (decodeBytes bs s).1

/-! ## Reset -/

/-- The reset operation (R310): every register of the block takes its value after reset, every held operation is abandoned,
`Reset` is recorded, and the environment presents `eos` (R294). The latches are not cleared (R58), and what is outside the
block stays: the configuration, the raw inputs, the streams, the schedule, the wire (R311). The result ports keep the word
given last (log 7). -/
def resetBlock (eos : Bool) (s : State) : State :=
  record .reset
    { s with
      rx := Ring.reset
      tx := Ring.reset
      rawLatest := Vector.replicate 6 0
      acc := Vector.replicate 6 0
      rep := Vector.replicate 10 0
      dtimer := Vector.replicate 10 0
      actTimer := 0
      cycEmit := false
      encBuf := Vector.replicate 3 0
      encLen := 0
      encPos := 0
      decState := .idle
      decCh := 0
      decHi := 0
      rdDone := false
      pending := PerAgent.all none
      eos := eos }

end Sys2Proof.Machine
end

