-- ==== Sys2Proof/Machine/Decoder.lean ====
section
/-! DEFINITION. The decoder's operations (spec/43_decoder.md) and the decoder's consumption of the wire's bytes and packets (spec/30_encoding.md R101, R105, R106; log 10). -/

namespace Sys2Proof.Machine

/-- DECB b: feed one byte to the decoder (R241). -/
def execDecb (b : BitVec 8) (s : State) : Host.Outcome State Fault Refusal :=
  guarded (.decb b) s fun s => .next (feedDecoder [b] s)

/-- DECNEXT: pull the next byte of the RX ring and decode it; on an empty ring take end of stream if `eos` is 1, else hold RxEmpty (R246). -/
def execDecnext (s : State) : Host.Outcome State Fault Refusal :=
  guarded .decnext s fun s =>
    match s.rx.pop s.cfg.cRx with
    | .empty =>
      if s.eos then .next (complete endOfStreamWord (endOfStream s))
      else .next (hold .decnext .rxEmpty s)
    | .byte b r => .next (feedDecoder [b] { s with rx := r })
    | .unwritten slot => .fault (.unwrittenSlot .rx slot)

/-- HDR_A c: the decoder consumes an analog header byte (R101, R242). -/
def execHdrA (c : BitVec 6) (s : State) : Host.Outcome State Fault Refusal :=
  guarded (.hdrA c) s fun s => .next (feedDecoder [hdrAByte c] s)

/-- HDR_D c: the decoder consumes a digital header byte (R101, R242). -/
def execHdrD (c : BitVec 6) (s : State) : Host.Outcome State Fault Refusal :=
  guarded (.hdrD c) s fun s => .next (feedDecoder [hdrDByte c] s)

/-- PAYLOAD p: the decoder consumes a payload byte (R101, R243 to R245). -/
def execPayload (p : BitVec 7) (s : State) : Host.Outcome State Fault Refusal :=
  guarded (.payload p) s fun s => .next (feedDecoder [payloadByte p] s)

/-- PKT_A c, h, l: the decoder consumes an analog packet's three bytes in wire order (R105, R249). -/
def execPktA (c : BitVec 6) (h : BitVec 7) (l : BitVec 7) (s : State) : Host.Outcome State Fault Refusal :=
  guarded (.pktA c h l) s fun s => .next (feedDecoder [hdrAByte c, payloadByte h, payloadByte l] s)

/-- PKT_D c, v: the decoder consumes a digital packet's two bytes in wire order (R106, R249). -/
def execPktD (c : BitVec 6) (v : BitVec 7) (s : State) : Host.Outcome State Fault Refusal :=
  guarded (.pktD c v) s fun s => .next (feedDecoder [hdrDByte c, payloadByte v] s)

end Sys2Proof.Machine
end

