-- ==== Sys2Proof/Machine/Encoder.lean ====
section
/-! DEFINITION. The encoder's operations and the encoder stage's push (spec/42_encoder.md). -/

namespace Sys2Proof.Machine

/-- ENCA ch, v: the stage takes the analog packet; its three pushes are FG's next steps (R221). No `cyc_emit`, no `Emit`. -/
def execEnca (ch : BitVec 4) (v : BitVec 10) (s : State) : Host.Outcome State Fault Refusal :=
  guarded (.enca ch v) s fun s =>
    .next (complete 0 (encLoad (.analog (ch.setWidth 6) (v.setWidth 14)) s))

/-- ENCD ch, v: the stage takes the digital packet; its two pushes are FG's next steps (R222). -/
def execEncd (ch : BitVec 4) (v : BitVec 1) (s : State) : Host.Outcome State Fault Refusal :=
  guarded (.encd ch v) s fun s =>
    .next (complete 0 (encLoad (.digital (ch.setWidth 6) (v.setWidth 7)) s))

/-- The byte the stage pushes next, `enc_buf[enc_pos]` (R224). -/
def stageByte (s : State) : Byte := s.encBuf[Fin.ofNat 3 s.encPos]

/-- The stage after the push of one byte: the next byte, or empty after the last (R224). -/
def stageAdvance (s : State) : State :=
  if s.encPos + 1 = s.encLen then { s with encLen := 0, encPos := 0 } else { s with encPos := s.encPos + 1 }

/-- FG's stage push is held on a full TX ring: FG is pending on it, unless an operation of its stream is already pending (R54, R224; log 6). -/
def holdStage (s : State) : State :=
  { s with pending := { s.pending with fg := s.pending.fg.or (some ⟨.stage, .txFull⟩) } }

/-- A stage push that was held is no longer pending once performed (R54; log 6). -/
def clearStageHold (s : State) : State :=
  { s with
    pending :=
      { s.pending with
        fg := match s.pending.fg with
          | some ⟨.stage, _⟩ => none
          | p => p } }

/-- The stage push `FG:stage` (R224): with the stage busy, one byte goes into the TX ring, or FG holds TxFull. With the stage empty there is no such step, and nothing changes (log 9). -/
def stagePush (s : State) : State :=
  if stageBusy s = false then s
  else if s.tx.isFull s.cfg.cTx then holdStage s
  else clearStageHold (stageAdvance { s with tx := s.tx.put s.cfg.cTx (stageByte s) })

end Sys2Proof.Machine
end

