-- ==== Sys2Proof/Machine/Reserved.lean ====
section
/-! DEFINITION. The reserved operation code (spec/30_encoding.md R116, R118). -/

namespace Sys2Proof.Machine

/-- A word with OP = 0x0: the block performs `refuse IllegalCommand(word)`, changes no other state and gives no result; this
check comes before every other (R118, R283). -/
def execReservedOp0 (low : BitVec 20) (s : State) : Host.Outcome State Fault Refusal :=
  .next (refuse (.illegalCommand (commandWord (.reservedOp0 low))) s)

end Sys2Proof.Machine
end

