-- ==== Sys2Proof/Machine/Rings.lean ====
section
/-! DEFINITION. The ring transport operations (spec/40_ring_transport.md): RX lossy, TX blocking, on purpose asymmetric (R167). -/

namespace Sys2Proof.Machine

/-- RXPUSH b: push a received byte, dropping it when the RX ring is full (R142). -/
def execRxpush (b : BitVec 8) (s : State) : Host.Outcome State Fault Refusal :=
  guarded (.rxpush b) s fun s =>
    if s.rx.isFull s.cfg.cRx then .next (complete 0 (record (.rxDrop b) s))
    else .next (complete 1 { s with rx := s.rx.put s.cfg.cRx b })

/-- RXPOP: take the oldest unread byte of the RX ring, or Empty (R144). -/
def execRxpop (s : State) : Host.Outcome State Fault Refusal :=
  guarded .rxpop s fun s =>
    match s.rx.pop s.cfg.cRx with
    | .empty => .next (complete 0 s)
    | .byte b r => .next (complete (popWord b) { s with rx := r })
    | .unwritten slot => .fault (.unwrittenSlot .rx slot)

/-- RXAVAIL: the RX ring's occupancy, for any agent (R146). -/
def execRxavail (s : State) : Host.Outcome State Fault Refusal :=
  guarded .rxavail s fun s => .next (complete (BitVec.ofNat 24 (s.rx.occ s.cfg.cRx)) s)

/-- RXFLUSH: discard every unread byte of the RX ring (R148). -/
def execRxflush (s : State) : Host.Outcome State Fault Refusal :=
  guarded .rxflush s fun s => .next (complete 0 { s with rx := s.rx.flush })

/-- TXPUSH b: push a byte into the TX ring, waiting while it is full (R155). -/
def execTxpush (b : BitVec 8) (s : State) : Host.Outcome State Fault Refusal :=
  guarded (.txpush b) s fun s =>
    if s.tx.isFull s.cfg.cTx then .next (hold (.txpush b) .txFull s)
    else .next (complete 0 { s with tx := s.tx.put s.cfg.cTx b })

/-- TXPOP: take the oldest unsent byte of the TX ring and hand it to the transmitter, or Empty (R159). The byte joins the TX stream (R71). -/
def execTxpop (s : State) : Host.Outcome State Fault Refusal :=
  guarded .txpop s fun s =>
    match s.tx.pop s.cfg.cTx with
    | .empty => .next (complete 0 s)
    | .byte b r =>
      .next (complete (popWord b) (record (.txOut b) { s with tx := r, wire := s.wire ++ [b] }))
    | .unwritten slot => .fault (.unwrittenSlot .tx slot)

/-- TXAVAIL: the TX ring's occupancy, for any agent (R163). -/
def execTxavail (s : State) : Host.Outcome State Fault Refusal :=
  guarded .txavail s fun s => .next (complete (BitVec.ofNat 24 (s.tx.occ s.cfg.cTx)) s)

/-- TXFLUSH: discard every unsent byte of the TX ring (R165). -/
def execTxflush (s : State) : Host.Outcome State Fault Refusal :=
  guarded .txflush s fun s => .next (complete 0 { s with tx := s.tx.flush })

end Sys2Proof.Machine
end

