-- ==== Sys2Proof/Machine/Sampler.lean ====
section
/-! DEFINITION. The sampler's operations (spec/41_sampler.md): IIR smoothing, debounce, the activity indicator. -/

namespace Sys2Proof.Machine

/-- One smoothing step of analog channel k (R181): the accumulator and the event change together or not at all (R183). -/
def smoothStep (k : Fin 6) (raw : BitVec 10) (s : State) : State :=
  let v := smooth s.cfg raw s.acc[k]
  let s1 := { s with rawLatest := s.rawLatest.set k raw }
  if v = s.acc[k] then s1
  else emitSample (.analog (BitVec.ofNat 6 k) (v.setWidth 14)) { s1 with acc := s1.acc.set k v }

/-- SMPA ch, raw (R181). -/
def execSmpa (ch : BitVec 4) (raw : BitVec 10) (s : State) : Host.Outcome State Fault Refusal :=
  guarded (.smpa ch raw) s fun s => .next (complete 0 (smoothStep (analogIx ch) raw s))

/-- One debounce step of digital channel k (R185): the test reads the old timer, the reload comes next, the decrement last (R186). -/
def debounceStep (k : Fin 10) (raw : BitVec 1) (s : State) : State :=
  if raw ≠ s.rep[k] ∧ s.dtimer[k] = 0 then
    emitSample (.digital (BitVec.ofNat 6 k) (raw.setWidth 7))
      { s with rep := s.rep.set k raw, dtimer := s.dtimer.set k (satDec s.cfg.deb) }
  else { s with dtimer := s.dtimer.set k (satDec s.dtimer[k]) }

/-- SMPD ch, raw (R185). -/
def execSmpd (ch : BitVec 4) (raw : BitVec 1) (s : State) : Host.Outcome State Fault Refusal :=
  guarded (.smpd ch raw) s fun s => .next (complete 0 (debounceStep (digitalIx ch) raw s))

/-- CYCEND: reload the activity countdown after a cycle with an emission, else count it down; the cycle's flag is consumed (R190). -/
def execCycend (s : State) : Host.Outcome State Fault Refusal :=
  guarded .cycend s fun s =>
    .next (complete 0
      { s with
        actTimer := if s.cycEmit then s.cfg.actCycles else satDec s.actTimer
        cycEmit := false })

end Sys2Proof.Machine
end

