-- ==== Sys2Proof/Machine/Dispatch.lean ====
section
/-! DEFINITION. One arm per row of spec/opcode_table.json, each one direct call of its meaning. -/

namespace Sys2Proof.Machine

/-- What an operation does when it is presented on the port of the state's `issuer`. -/
def exec (i : Instr) (s : State) : Host.Outcome State Fault Refusal :=
  match i with
  | .rxpush b => Sys2Proof.Machine.execRxpush b s
  | .rxpop => Sys2Proof.Machine.execRxpop s
  | .rxavail => Sys2Proof.Machine.execRxavail s
  | .rxflush => Sys2Proof.Machine.execRxflush s
  | .txpush b => Sys2Proof.Machine.execTxpush b s
  | .txpop => Sys2Proof.Machine.execTxpop s
  | .txavail => Sys2Proof.Machine.execTxavail s
  | .txflush => Sys2Proof.Machine.execTxflush s
  | .enca ch v => Sys2Proof.Machine.execEnca ch v s
  | .encd ch v => Sys2Proof.Machine.execEncd ch v s
  | .smpa ch raw => Sys2Proof.Machine.execSmpa ch raw s
  | .smpd ch raw => Sys2Proof.Machine.execSmpd ch raw s
  | .cycend => Sys2Proof.Machine.execCycend s
  | .decb b => Sys2Proof.Machine.execDecb b s
  | .decnext => Sys2Proof.Machine.execDecnext s
  | .reservedOp0 low => Sys2Proof.Machine.execReservedOp0 low s
  | .hdrA c => Sys2Proof.Machine.execHdrA c s
  | .hdrD c => Sys2Proof.Machine.execHdrD c s
  | .payload p => Sys2Proof.Machine.execPayload p s
  | .pktA c h l => Sys2Proof.Machine.execPktA c h l s
  | .pktD c v => Sys2Proof.Machine.execPktD c v s

end Sys2Proof.Machine
end

