-- ==== Sys2Proof/Machine/Agents.lean ====
section
/-! DEFINITION. How operations reach the block: an agent presents one on its command port (spec/30_encoding.md R114), the interleaving is a schedule of moves (spec/20_memory.md R84, spec/30_encoding.md R126), and the environment has the liberties of spec/60_exceptions.md R294 and spec/20_memory.md R81 (log 9, log 14). -/

namespace Sys2Proof.Machine

/-- A code presented on agent a's port: the decoded instruction runs; an illegal command word is refused (R118); bytes that are no unit of the wire encoding have no row. -/
def runCode (a : Agent) (c : Code) (s : State) : Host.Outcome State Fault Refusal :=
  match decode c, c with
  | .ok i, _ => exec i { s with issuer := a }
  | .error _, .command w => .next (refuse (.illegalCommand w) { s with issuer := a })
  | .error _, .wire _ => .refused .notAWireUnit

/-- If agent a's operation was held, what stays pending is the item as issued (a port sample is read again when retried, R127). -/
def keepIssued (a : Agent) (it : Item) (s : State) : State :=
  match s.pending.get a with
  | some ⟨.item _, why⟩ => { s with pending := s.pending.set a (some ⟨.item it, why⟩) }
  | _ => s

/-- The same on an outcome. -/
def keepIssuedIn (a : Agent) (it : Item) :
    Host.Outcome State Fault Refusal → Host.Outcome State Fault Refusal
  | .next s => .next (keepIssued a it s)
  | o => o

/-- The SMPA that samples analog channel ch from `ain` now (R127). -/
def sampleAInstr (ch : Fin 6) (s : State) : Instr := .smpa (BitVec.ofNat 4 ch) s.ain[ch]

/-- The SMPD that samples digital channel ch from `din` now (R127). -/
def sampleDInstr (ch : Fin 10) (s : State) : Instr := .smpd (BitVec.ofNat 4 ch) s.din[ch]

/-- Agent a presents one operation of its stream. -/
def attempt (a : Agent) (it : Item) (s : State) : Host.Outcome State Fault Refusal :=
  match it with
  | .code c => runCode a c s
  | .sampleA ch => keepIssuedIn a it (exec (sampleAInstr ch s) { s with issuer := a })
  | .sampleD ch => keepIssuedIn a it (exec (sampleDInstr ch s) { s with issuer := a })

/-- Agent a presents an operation: its pending one again (R18), or else the next of its stream; with neither it issues nothing (R293). The stage push is FG's step (R224): in another agent's slot, where no step puts it, it is no operation. -/
def agentIssue (a : Agent) (s : State) : Host.Outcome State Fault Refusal :=
  match s.pending.get a with
  | some ⟨.stage, _⟩ => if a = .fg then .next (stagePush s) else .next s
  | some ⟨.item it, _⟩ => attempt a it s
  | none =>
    match s.streams.get a with
    | [] => .next s
    | it :: rest => attempt a it { s with streams := s.streams.set a rest }

/-- Agent a is scheduled. While the encoder stage is busy FG's next step is the stage push (R224, R156); any other time the agent issues. -/
def agentTurn (a : Agent) (s : State) : Host.Outcome State Fault Refusal :=
  if a = .fg ∧ stageBusy s = true then .next (stagePush s) else agentIssue a s

/-- An operation joins the end of agent a's stream (R31). -/
def addToStream (a : Agent) (it : Item) (s : State) : State :=
  { s with streams := s.streams.set a (s.streams.get a ++ [it]) }

/-- The receiver offers a byte: RXI has one RXPUSH of it to issue (R71, R278). -/
def offer (b : Byte) (s : State) : State := addToStream .rxi (.code (encode (.rxpush b))) s

/-- An item that would push a received byte: an RXPUSH, whichever encoding of streams it stands in. -/
def isRxpush : Item → Bool
  | .code c =>
    match decode c with
    | .ok (.rxpush _) => true
    | _ => false
  | .sampleA _ | .sampleD _ => false

/-- One move of the interleaving. Bytes reach RXI as WIRE_MODEL says: freely, or taken from the wire in order (R81). -/
def runMove (m : Move) (s : State) : Host.Outcome State Fault Refusal :=
  match m with
  | .run a => agentTurn a s
  | .issue a => agentIssue a s
  | .stage => .next (stagePush s)
  | .rst eos => .next (resetBlock eos s)
  | .raiseEos => .next { s with eos := true }
  | .setAin i v => .next { s with ain := s.ain.set i v }
  | .setDin j v => .next { s with din := s.din.set j v }
  | .supply a it =>
    if a = .rxi ∧ isRxpush it = true ∧ s.cfg.wireModel ≠ .free then .refused .wireModelForbids
    else .next (addToStream a it s)
  | .deliver =>
    match s.cfg.wireModel, s.wire with
    | .free, _ | _, [] => .refused .wireModelForbids
    | _, b :: rest => .next (offer b { s with wire := rest })
  | .lose =>
    match s.cfg.wireModel, s.wire with
    | .lossyLoopback, _ :: rest => .next { s with wire := rest }
    | _, _ => .refused .wireModelForbids
  | .corrupt b =>
    match s.cfg.wireModel, s.wire with
    | .lossyLoopback, _ :: rest => .next (offer b { s with wire := rest })
    | _, _ => .refused .wireModelForbids

/-- One step: the next move of the schedule; with none left nobody moves (R293; log 9). -/
def turn (s : State) : Host.Outcome State Fault Refusal :=
  match s.schedule with
  | [] => .next s
  | m :: rest => runMove m { s with schedule := rest }

/-- The agent a code is placed with: the first owner of its instruction, FG where it has none. -/
def codeAgent (c : Code) : Agent :=
  match decode c with
  | .ok i => (owners i).headD .fg
  | .error _ => .fg

/-- A code placed as the very next operation: it heads its agent's stream, nothing of that agent is pending, and the schedule begins with that agent issuing (log 9). -/
def placeCode (c : Code) (s : State) : State :=
  { s with
    pending := s.pending.set (codeAgent c) none
    streams := s.streams.set (codeAgent c) (.code c :: s.streams.get (codeAgent c))
    schedule := .issue (codeAgent c) :: s.schedule }

end Sys2Proof.Machine
end

