-- ==== Sys2Proof/Machine/Step.lean ====
section
/-! DEFINITION. One step of the machine: the next move of the interleaving (spec/20_memory.md R84). -/

namespace Sys2Proof.Machine

/-- One step. -/
def step (s : State) : Host.Outcome State Fault Refusal := turn s

/-- s with a row's word, numbered as spec/opcode_table.json numbers its bits, placed as the next operation. The block fetches
nothing (R79): the word heads its owner's stream, and the schedule begins with that agent (log 9, log 11). -/
def State.withFetchWord (s : State) (nbits w : Nat) : State := placeCode (tableCode nbits w) s

end Sys2Proof.Machine
end

