-- ==== Sys2Proof/Machine/Assembler.lean ====
section
/-! DEFINITION. The assembler text of operations and the macros (spec/30_encoding.md R122, R123, R127, R128): how a stream is written down. Text is a list of characters. What R122 and R123 leave open about text they do not describe is the model's choice (log 21). -/

namespace Sys2Proof.Machine

/-! ## Macros -/

/-- `OP *n`: n copies of an operation (R122). -/
def times (n : Nat) (it : Item) : List Item := List.replicate n it

/-- The stream item of an instruction. -/
def itemOf (i : Instr) : Item := .code (encode i)

/-- CYCLE with operands: one SMPA or SMPD per channel in SCAN_ORDER, then one CYCEND (R127). -/
def cycleWith (c : Config) (a : Vector (BitVec 10) 6) (d : Vector (BitVec 1) 10) : List Item :=
  c.scanOrder.map
      (fun
        | .analog i => itemOf (.smpa (BitVec.ofNat 4 i) a[i])
        | .digital j => itemOf (.smpd (BitVec.ofNat 4 j) d[j]))
    ++ [itemOf .cycend]

/-- CYCLE without operands: each raw input is read from `ain` or `din` when its SMPA or SMPD is performed (R127). -/
def cyclePorts (c : Config) : List Item :=
  c.scanOrder.map (fun | .analog i => .sampleA i | .digital j => .sampleD j) ++ [itemOf .cycend]

/-- DRAIN on a TX ring of occupancy n: TXPOP until Empty, n + 1 of them (R128). -/
def drain (n : Nat) : List Item := times (n + 1) (itemOf .txpop)

/-! ## Reading a line (R122, R123) -/

/-- A separator within a line: blank or tab (DESIGN CHOICE, log 21). -/
def isBlank (c : Char) : Bool := c = ' ' || c = '\t'

/-- Text without leading and trailing blanks. -/
def trimText (t : List Char) : List Char := (((t.dropWhile isBlank).reverse).dropWhile isBlank).reverse

/-- The text before the first c, and the text after it when there is one. -/
def cutAt (c : Char) : List Char → List Char × Option (List Char)
  | [] => ([], none)
  | x :: xs => if x = c then ([], some xs) else ((x :: (cutAt c xs).1), (cutAt c xs).2)

/-- The pieces of a text between commas. -/
def commaPieces : List Char → List (List Char)
  | [] => [[]]
  | x :: xs =>
    if x = ',' then [] :: commaPieces xs
    else
      match commaPieces xs with
      | [] => [[x]]
      | p :: ps => (x :: p) :: ps

/-- The value of a digit in a base of at most 16. -/
def digitOf (base : Nat) (c : Char) : Option Nat :=
  let v :=
    if '0' ≤ c ∧ c ≤ '9' then c.toNat - 48
    else if 'a' ≤ c ∧ c ≤ 'f' then c.toNat - 87
    else if 'A' ≤ c ∧ c ≤ 'F' then c.toNat - 55
    else base
  if v < base then some v else none

/-- The value of digits in a base, given the value of those before. -/
def digitsFrom (base : Nat) : Nat → List Char → Option Nat
  | n, [] => some n
  | n, c :: cs =>
    match digitOf base c with
    | some v => digitsFrom base (n * base + v) cs
    | none => none

/-- A number, decimal or with `0x` (R122). -/
def numberOf (t : List Char) : Option Nat :=
  match t with
  | [] => none
  | '0' :: 'x' :: d :: ds => digitsFrom 16 0 (d :: ds)
  | d :: ds => digitsFrom 10 0 (d :: ds)

/-- Several numbers, all readable. -/
def numbersOf : List (List Char) → Option (List Nat)
  | [] => some []
  | t :: ts =>
    match numberOf (trimText t), numbersOf ts with
    | some n, some ns => some (n :: ns)
    | _, _ => none

/-- A number as a field of w bits, when it fits; DESIGN CHOICE: one that does not fit gives no operation (log 21). -/
def fieldOf (w n : Nat) : Option (BitVec w) := if n < 2 ^ w then some (BitVec.ofNat w n) else none

/-- An instruction in range, as a one-operation stream. DESIGN CHOICE: with a channel out of range (`ENCA 6, 0`) the text gives no operation, where R123 is silent and R118 has the block refuse the word 0x960000 (log 21); the word itself can still be put into a stream. -/
def oneItem (i : Instr) : Option (List Item) := if i.wellFormed then some [itemOf i] else none

/-- A channel and a value operand. -/
def chItem (w : Nat) (f : BitVec 4 → BitVec w → Instr) (ch v : Nat) : Option (List Item) :=
  match fieldOf 4 ch, fieldOf w v with
  | some c, some x => oneItem (f c x)
  | _, _ => none

/-- A byte operand. -/
def byteItem (f : BitVec 8 → Instr) (b : Nat) : Option (List Item) :=
  match fieldOf 8 b with
  | some x => oneItem (f x)
  | none => none

/-- The items of CYCLE's 16 operands, each in its raw input's range (R127); DESIGN CHOICE: one out of range, or another number of operands, gives no operation (log 21). -/
def cycleOperands (c : Config) (ns : List Nat) : Option (List Item) :=
  if ns.length = 16 ∧ (ns.take 6).all (· < 1024) ∧ (ns.drop 6).all (· < 2) then
    some (cycleWith c (Vector.ofFn fun i => BitVec.ofNat 10 (ns.getD i 0))
      (Vector.ofFn fun j => BitVec.ofNat 1 (ns.getD (j + 6) 0)))
  else none

/-- The operations of a mnemonic with its operands (R123, R127); DESIGN CHOICE: an unknown mnemonic, or another number of operands, gives none (log 21). -/
def assemble (c : Config) (mnemonic : List Char) (ns : List Nat) : Option (List Item) :=
  match String.ofList mnemonic, ns with
  | "RXPUSH", [b] => byteItem .rxpush b
  | "RXPOP", [] => oneItem .rxpop
  | "RXAVAIL", [] => oneItem .rxavail
  | "RXFLUSH", [] => oneItem .rxflush
  | "TXPUSH", [b] => byteItem .txpush b
  | "TXPOP", [] => oneItem .txpop
  | "TXAVAIL", [] => oneItem .txavail
  | "TXFLUSH", [] => oneItem .txflush
  | "ENCA", [ch, v] => chItem 10 .enca ch v
  | "ENCD", [ch, v] => chItem 1 .encd ch v
  | "SMPA", [ch, raw] => chItem 10 .smpa ch raw
  | "SMPD", [ch, raw] => chItem 1 .smpd ch raw
  | "CYCEND", [] => oneItem .cycend
  | "DECB", [b] => byteItem .decb b
  | "DECNEXT", [] => oneItem .decnext
  | "CYCLE", [] => some (cyclePorts c)
  | "CYCLE", ns => cycleOperands c ns
  | _, _ => none

/-- The agent of a line's prefix (R122). -/
def agentOf (t : List Char) : Option Agent :=
  match String.ofList t with
  | "FG" => some .fg
  | "TXI" => some .txi
  | "RXI" => some .rxi
  | "RD" => some .rd
  | _ => none

/-- How often a line's operation stands: `*n`, once where there is no star (R122). -/
def repeatOf : Option (List Char) → Option Nat
  | none => some 1
  | some t => numberOf (trimText t)

/-- An operation with its operands and its repetition, without agent or comment. -/
def assembleOp (c : Config) (t : List Char) : Option (List Item) :=
  let (body, star) := cutAt '*' t
  let (mnemonic, rest) := cutAt ' ' (trimText body)
  let operands := trimText (rest.getD [])
  match repeatOf star, if operands = [] then some [] else numbersOf (commaPieces operands) with
  | some n, some ns => (assemble c mnemonic ns).map fun its => (List.replicate n its).flatten
  | _, _ => none

/-- One line: its agent, if it names one, and its operations; a blank or comment line has none (R122). -/
def assembleLine (c : Config) (line : List Char) : Option (Option Agent × List Item) :=
  let t := trimText (cutAt ';' line).1
  if t = [] then some (none, [])
  else
    match cutAt ':' t with
    | (_, none) => (assembleOp c t).map fun its => (none, its)
    | (a, some rest) =>
      match agentOf (trimText a), assembleOp c (trimText rest) with
      | some a, some its => some (some a, its)
      | _, _ => none

end Sys2Proof.Machine
end

