-- ==== Sys2Proof/Safety.lean ====
section
/-! DEFINITION. What counts as a safe run, in the terms claims use: the invariants of the block (spec/10_state.md R35, R38, R40, R52, R56), the latches clear (R58), finished runs (spec/60_exceptions.md R298) and fairness (R295). -/

namespace Sys2Proof.Machine

/-- A ring of capacity C in order: indices in range, storage in canonical form within the slots, and every unread slot written (R34, R35, R52, R70). -/
structure RingOk (C : Nat) (r : Ring) : Prop where
  head_lt : r.head < C
  tail_lt : r.tail < C
  wf : Memory.wf r.buf
  slots : ∀ c ∈ r.buf, c.1 < C
  written : ∀ k < r.occ C, (Memory.read r.buf ((r.tail + k) % C)).isSome = true

/-- The invariant of the block that every step keeps (R56). -/
structure BlockInv (s : State) : Prop where
  cfg : s.cfg.Valid
  rx : RingOk s.cfg.cRx s.rx
  tx : RingOk s.cfg.cTx s.tx
  dtimer : ∀ j : Fin 10, s.dtimer[j] ≤ s.cfg.deb
  act : s.actTimer ≤ s.cfg.actCycles
  pos : s.encPos ≤ s.encLen
  len : s.encLen ≤ 3

/-- The decoder holds no stale packet data: nothing pending in Idle, no first payload before one has come (R241, D17). -/
def DecoderClean (s : State) : Prop :=
  match s.decState with
  | .idle => s.decCh = 0 ∧ s.decHi = 0
  | .awaitAnalogHigh | .awaitDigitalValue => s.decHi = 0
  | .awaitAnalogLow => True

/-- Fault latch clear and refusal latch clear, the premise of a claim about the block (R58). -/
def LatchesClear (s : State) : Prop := s.faultLatch = none ∧ s.refusalLatch = none

/-- The run is finished: every stream performed to its end, RD's at the latest at the DECNEXT that took end of stream; nothing held, the stage not busy, the latches clear (R298). DESIGN CHOICE: a stream is performed to its end when it is empty, also if a reset abandoned its last operation while it was held; R298 and R310 do not say whether that one counts (log 4). -/
def Finished (s : State) : Prop :=
  s.streams.fg = [] ∧ s.streams.txi = [] ∧ s.streams.rxi = [] ∧ (s.streams.rd = [] ∨ s.rdDone = true) ∧
  s.pending = PerAgent.all none ∧ stageBusy s = false ∧ LatchesClear s

/-- An outcome is not a fault. -/
def NoFault : Host.Outcome State Fault Refusal → Prop
  | .fault _ => False
  | .next _ | .refused _ => True

/-! ## The two kinds of rows -/

/-- The instruction has a command word (R117). -/
def IsCommand (i : Instr) : Prop := ∃ w, encode i = .command w

/-- The instruction is a row of the wire encoding: a byte or a whole packet (R101, R105, R106). -/
def IsWireRow (i : Instr) : Prop := ∃ bs, encode i = .wire bs

/-! ## What an operation's port shows -/

/-- Checks (1) to (4) of R283 let the operation through: legal, issued by an owner, RD not after end of stream, FG not while the stage is busy. -/
structure Ready (i : Instr) (s : State) : Prop where
  legal : WellFormed i
  owned : owns i s.issuer = true
  reader : s.issuer = .rd → s.rdDone = false
  stage : s.issuer = .fg → stageBusy s = false

/-- The issuer's result port shows w and it has nothing pending; the other agents' ports are as before. -/
def PortDone (s t : State) (w : CmdWord) : Prop :=
  t.result.get s.issuer = some w ∧ t.pending.get s.issuer = none ∧
  ∀ a, a ≠ s.issuer → t.result.get a = s.result.get a ∧ t.pending.get a = s.pending.get a

/-- Nothing but the issuer's pending slot differs: it holds the operation and the reason. -/
def Held (i : Instr) (why : HoldReason) (s t : State) : Prop :=
  t.pending.get s.issuer = some ⟨.item (.code (encode i)), why⟩ ∧
  (∀ a, a ≠ s.issuer → t.pending.get a = s.pending.get a) ∧ t = { s with pending := t.pending }

/-- The issuer has nothing pending any more; the other agents' slots are as before. -/
def PortCleared (s t : State) : Prop :=
  t.pending.get s.issuer = none ∧ ∀ a, a ≠ s.issuer → t.pending.get a = s.pending.get a

/-! ## Rings as queues -/

/-- The unread bytes of a ring, oldest first. -/
def Ring.contents (C : Nat) (r : Ring) : List (Option Byte) :=
  (List.range (r.occ C)).map fun k => Memory.read r.buf ((r.tail + k) % C)

/-- r' is r after byte b was put in slot head: that slot holds b, every other slot reads as before, head has advanced. -/
def PushedByte (C : Nat) (b : Byte) (r r' : Ring) : Prop :=
  Memory.read r'.buf r.head = some b ∧ (∀ k, k ≠ r.head → Memory.read r'.buf k = Memory.read r.buf k) ∧
  r'.head = (r.head + 1) % C ∧ r'.tail = r.tail

/-- r' is r after the byte of slot tail was taken: only tail differs, by one slot. -/
def PoppedByte (C : Nat) (r r' : Ring) : Prop :=
  r'.buf = r.buf ∧ r'.head = r.head ∧ r'.tail = (r.tail + 1) % C

/-- Pushing bytes one after another: each push's accepted bit, and the ring after. -/
def Ring.pushMany (C : Nat) : List Byte → Ring → List Bool × Ring
  | [], r => ([], r)
  | b :: bs, r =>
    ((r.push C b).1 :: (Ring.pushMany C bs (r.push C b).2).1, (Ring.pushMany C bs (r.push C b).2).2)

/-- Popping n times: the bytes, when every pop finds one, and the ring after. -/
def Ring.popMany (C : Nat) : Nat → Ring → Option (List Byte × Ring)
  | 0, r => some ([], r)
  | n + 1, r =>
    match r.pop C with
    | .byte b r' => (Ring.popMany C n r').map fun p => (b :: p.1, p.2)
    | .empty | .unwritten _ => none

/-! ## The decoder against its table -/

/-- One row and column of the transition table R248: from s, byte b leads to t, with values as numbers (`hi·128 + p`), the event recorded and the result word of R112 on the issuer's port. -/
def DecoderStep (b : Byte) (s t : State) : Prop :=
  if b.getLsbD 7 then
    t.decState = (if b.getLsbD 6 then .awaitDigitalValue else .awaitAnalogHigh) ∧
    t.decCh.toNat = b.toNat % 64 ∧ t.decHi = 0 ∧ t.history = s.history ∧ PortDone s t 0
  else
    match s.decState with
    | .idle =>
      t.decState = .idle ∧ t.decCh = s.decCh ∧ t.decHi = s.decHi ∧ t.history = s.history ∧ PortDone s t 0
    | .awaitAnalogHigh =>
      t.decState = .awaitAnalogLow ∧ t.decCh = s.decCh ∧ t.decHi.toNat = b.toNat ∧ t.history = s.history ∧
      PortDone s t 0
    | .awaitAnalogLow =>
      t.decState = .idle ∧ t.decCh = 0 ∧ t.decHi = 0 ∧
      t.history = s.history ++ [.event (.analog s.decCh (BitVec.ofNat 14 (s.decHi.toNat * 128 + b.toNat)))] ∧
      PortDone s t (BitVec.ofNat 24 (0x800000 + s.decCh.toNat * 65536 + s.decHi.toNat * 128 + b.toNat))
    | .awaitDigitalValue =>
      t.decState = .idle ∧ t.decCh = 0 ∧ t.decHi = 0 ∧
      t.history = s.history ++ [.event (.digital s.decCh (BitVec.ofNat 7 b.toNat))] ∧
      PortDone s t (BitVec.ofNat 24 (0xC00000 + s.decCh.toNat * 65536 + b.toNat))

/-- Everything but the decoder, the history and the port is as before. -/
def DecoderFrame (s t : State) : Prop :=
  t = { s with decState := t.decState, decCh := t.decCh, decHi := t.decHi, history := t.history,
               result := t.result, pending := t.pending }

/-- The events of bytes fed to the decoder one after another, in order, and the state after. -/
def decodedEvents : List Byte → State → List Event × State
  | [], s => ([], s)
  | b :: bs, s =>
    (((decodeByte b s).2.toList) ++ (decodedEvents bs (decodeByte b s).1).1, (decodedEvents bs (decodeByte b s).1).2)

/-- An event in the producer's range (R111, R226): analog channel 0..5 with value 0..1023, digital channel 0..9 with value 0 or 1. -/
def Producible : Event → Prop
  | .analog ch v => ch.toNat ≤ 5 ∧ v.toNat ≤ 1023
  | .digital ch v => ch.toNat ≤ 9 ∧ v.toNat ≤ 1

/-- The stage holds the wire bytes of an event, none pushed (R223), byte values as numbers. -/
def StageHolds (e : Event) (t : State) : Prop :=
  match e with
  | .analog ch v =>
    t.encBuf[0].toNat = 128 + ch.toNat ∧ t.encBuf[1].toNat = v.toNat / 128 ∧ t.encBuf[2].toNat = v.toNat % 128 ∧
    t.encLen = 3 ∧ t.encPos = 0
  | .digital ch v =>
    t.encBuf[0].toNat = 192 + ch.toNat ∧ t.encBuf[1].toNat = v.toNat ∧ t.encLen = 2 ∧ t.encPos = 0

/-! ## Legal command words (R117, R118) -/

/-- The rows of R117: match, mask, and the largest CH (5 or 9 where CH is a channel). -/
def commandRows : List (CmdWord × CmdWord × Nat) :=
  [(0x100000, 0xFFFF00, 15), (0x200000, 0xFFFFFF, 15), (0x300000, 0xFFFFFF, 15), (0x400000, 0xFFFFFF, 15),
   (0x500000, 0xFFFF00, 15), (0x600000, 0xFFFFFF, 15), (0x700000, 0xFFFFFF, 15), (0x800000, 0xFFFFFF, 15),
   (0x900000, 0xF0FC00, 5), (0xA00000, 0xF0FFFE, 9), (0xB00000, 0xF0FC00, 5), (0xC00000, 0xF0FFFE, 9),
   (0xD00000, 0xFFFFFF, 15), (0xE00000, 0xFFFF00, 15), (0xF00000, 0xFFFFFF, 15)]

/-- The word is a row's: `word & mask = match`, and its channel is in range (R117, R118). -/
def LegalWord (w : CmdWord) : Prop :=
  ∃ r ∈ commandRows, w &&& r.2.1 = r.1 ∧ (w.toNat / 65536) % 16 ≤ r.2.2

/-! ## The sampler over several steps -/

/-- An SMPD step of digital channel k emits (R185). -/
def SmpdEmits (k : Fin 10) (raw : BitVec 1) (s : State) : Prop := raw ≠ s.rep[k] ∧ s.dtimer[k] = 0

/-- Debounce steps of channel k, one after another. -/
def debounceRun (k : Fin 10) : List (BitVec 1) → State → State
  | [], s => s
  | raw :: raws, s => debounceRun k raws (debounceStep k raw s)

/-- Smoothing steps of channel k with a steady raw reading. -/
def smoothRun (k : Fin 6) (raw : BitVec 10) : Nat → State → State
  | 0, s => s
  | n + 1, s => smoothRun k raw n (smoothStep k raw s)

/-- n CYCENDs, one after another, while each completes. -/
def cycendRun : Nat → State → Option State
  | 0, s => some s
  | n + 1, s =>
    match exec .cycend s with
    | .next t => cycendRun n t
    | .fault _ | .refused _ => none

/-! ## Runs and fairness (R295) -/

/-- An infinite run: each state answers the next by one move. -/
structure Run where
  state : Nat → State
  move : Nat → Move
  steps : ∀ n, runMove (move n) (state n) = .next (state (n + 1))

/-- What agent a would present when it issues: its pending operation, or else the head of its stream, and the state it is presented in. FG's held stage push is no operation of its stream. -/
def presented (a : Agent) (s : State) : Option (Item × State) :=
  match s.pending.get a with
  | some ⟨.item it, _⟩ => some (it, s)
  | some ⟨.stage, _⟩ => none
  | none =>
    match s.streams.get a with
    | [] => none
    | it :: rest => some (it, { s with streams := s.streams.set a rest })

/-- The instruction an item is when presented now: none for a code that decodes to none, the port's value for a port sample (R127). -/
def itemInstr (it : Item) (s : State) : Option Instr :=
  match it with
  | .code c =>
    match decode c with
    | .ok i => some i
    | .error _ => none
  | .sampleA ch => some (sampleAInstr ch s)
  | .sampleD ch => some (sampleDInstr ch s)

/-- The issuer's operation would be performed: it is not refused, not raised, not held (R18). -/
def Performable (i : Instr) (s : State) : Prop :=
  Ready i s ∧ ∃ t, exec i s = .next t ∧ t.pending.get s.issuer = none

/-- Agent a's operation is enabled: FG's stage push with room in the TX ring, or an operation of its stream that would be performed. One that would be held, raised or refused is not enabled (R18, R295), so a terminated RD never is (R55). -/
def Enabled (a : Agent) (s : State) : Prop :=
  (a = .fg ∧ stageBusy s = true ∧ s.tx.isFull s.cfg.cTx = false) ∨
  ∃ it s' i, presented a s = some (it, s') ∧ itemInstr it s' = some i ∧ Performable i { s' with issuer := a }

/-- Step n of the run performs agent a's enabled operation: a scheduled agent does; an agent that issues does when what it issues is the enabled one (its stream's with the stage empty, or the held stage push); `stage` does for FG with the stage busy. -/
def Performs (r : Run) (a : Agent) (n : Nat) : Prop :=
  Enabled a (r.state n) ∧
  (r.move n = .run a ∨
    r.move n = .issue a ∧ (a = .fg → stageBusy (r.state n) = true →
      ∃ why, (r.state n).pending.fg = some ⟨.stage, why⟩) ∨
    r.move n = .stage ∧ a = .fg ∧ stageBusy (r.state n) = true)

/-- FG's next step is a push into the TX ring: the stage push, or a TXPUSH that is pending or heads its stream (R155, R224). -/
def PushIsNext (s : State) : Prop :=
  stageBusy s = true ∨ ∃ it s' b, presented .fg s = some (it, s') ∧ itemInstr it s' = some (.txpush b)

/-- FG holds TxFull: its next step is a push and the TX ring is full (R155, R224, R320). The held attempt need not have been made; a schedule may omit it (log 15). -/
def HoldsTxFull (s : State) : Prop := s.tx.isFull s.cfg.cTx = true ∧ PushIsNext s

/-- TXI performs a TXPOP at step n: it issues a pending TXPOP, or one that heads its stream with nothing pending. -/
def PopsTx (r : Run) (n : Nat) : Prop :=
  (r.move n = .run .txi ∨ r.move n = .issue .txi) ∧
  ((r.state n).pending.txi = none ∧ ∃ c rest, (r.state n).streams.txi = .code c :: rest ∧ decode c = .ok .txpop)

/-- Fairness, the only timing assumption (R295): an agent enabled infinitely often is performed infinitely often, and if FG holds TxFull for ever then TXI issues TXPOP infinitely often. -/
def Fair (r : Run) : Prop :=
  (∀ a, (∀ n, ∃ k ≥ n, Enabled a (r.state k)) → ∀ n, ∃ k ≥ n, Performs r a k) ∧
  ((∃ n, ∀ k ≥ n, HoldsTxFull (r.state k)) → ∀ n, ∃ k ≥ n, PopsTx r k)

end Sys2Proof.Machine
end

