-- ==== Sys2Proof/Certificates/Slice0/Obligations.lean ====
section
/-! DEFINITION. The statements for the provers. Each states what an operation, or a step of the machine, does, from the numbered rules of spec/. -/

open Sys2Proof Sys2Proof.Machine

/-! ## Encoding -/

/-- R101, R105, R106, R115 to R117: decoding the encoding of a well-formed instruction gives it back, every operand at every value. -/
def Obligations.DecodeOfEncode : Prop := ∀ i : Instr, WellFormed i → decode (encode i) = .ok i

/-- R117, R118: a command word has one meaning: what it decodes to is well-formed and encodes to that word. -/
def Obligations.EncodeOfDecodedCommand : Prop :=
  ∀ (w : CmdWord) (i : Instr), decodeCommand w = .ok i → WellFormed i ∧ encode i = .command w

/-- R101, R105, R106: what wire bytes decode to encodes to those bytes. -/
def Obligations.EncodeOfDecodedWire : Prop :=
  ∀ (bs : List Byte) (i : Instr), decodeWire bs = .ok i → encode i = .wire bs

/-- R101, R105, R106, R117: words written out from the encoding tables decode to the instructions they stand for. -/
def Obligations.WordsDecodeAsTabled : Prop :=
  decodeCommand 0x100080 = .ok (.rxpush 0x80) ∧ decodeCommand 0x600000 = .ok .txpop ∧
  decodeCommand 0xB20200 = .ok (.smpa 2 512) ∧ decodeCommand 0xA50001 = .ok (.encd 5 1) ∧
  decodeCommand 0xF00000 = .ok .decnext ∧ decodeWire [0xC5] = .ok (.hdrD 5) ∧
  decodeWire [0x82, 0x04, 0x00] = .ok (.pktA 2 4 0)

/-- R118: an illegal command word, whoever issues it, sets the refusal latch, with `IllegalCommand(word)` where it was clear; it gives no result and changes no state of the block, and nothing of the agent becomes pending. -/
def Obligations.IllegalWordIsRefused : Prop :=
  ∀ (a : Agent) (w : CmdWord) (s : State), ¬ LegalWord w →
    ∃ t, runCode a (.command w) s = .next t ∧ t.refusalLatch ≠ none ∧
      (s.refusalLatch = none → t.refusalLatch = some (.illegalCommand w)) ∧
      t = { s with refusalLatch := t.refusalLatch, pending := t.pending, issuer := a } ∧
      (s.pending.get a = none → t.pending.get a = none) ∧
      ∀ b, b ≠ a → t.pending.get b = s.pending.get b

/-! ## Ring transport -/

/-- R142: RXPUSH stores the byte and answers 1, or on a full ring drops it, records RxDrop and answers 0; nothing else changes. -/
def Obligations.RxpushStoresOrDrops : Prop :=
  ∀ (b : Byte) (s : State), Ready (.rxpush b) s →
    ∃ t, exec (.rxpush b) s = .next t ∧
      if (s.rx.head + 1) % s.cfg.cRx = s.rx.tail then
        t = { s with history := s.history ++ [.rxDrop b], result := t.result, pending := t.pending } ∧ PortDone s t 0
      else
        PushedByte s.cfg.cRx b s.rx t.rx ∧ t = { s with rx := t.rx, result := t.result, pending := t.pending } ∧
        PortDone s t 1

/-- R144: RXPOP answers 0 on an empty ring and changes nothing; else it answers 0x100 | byte and tail advances. On a slot nothing wrote it faults by name (log 2). -/
def Obligations.RxpopTakesOldest : Prop :=
  ∀ s : State, Ready .rxpop s →
    (s.rx.head = s.rx.tail →
      ∃ t, exec .rxpop s = .next t ∧ t = { s with result := t.result, pending := t.pending } ∧ PortDone s t 0) ∧
    (∀ b, s.rx.head ≠ s.rx.tail → Memory.read s.rx.buf s.rx.tail = some b →
      ∃ t, exec .rxpop s = .next t ∧ PoppedByte s.cfg.cRx s.rx t.rx ∧
        t = { s with rx := t.rx, result := t.result, pending := t.pending } ∧
        PortDone s t (BitVec.ofNat 24 (256 + b.toNat))) ∧
    (s.rx.head ≠ s.rx.tail → Memory.read s.rx.buf s.rx.tail = none →
      exec .rxpop s = .fault (.unwrittenSlot .rx s.rx.tail))

/-- R145, R146, R163: RXAVAIL and TXAVAIL answer (head − tail) mod C, a number in 0 .. C − 1, to any agent, and write nothing. -/
def Obligations.AvailCountsUnread : Prop :=
  ∀ s : State, RingOk s.cfg.cRx s.rx → RingOk s.cfg.cTx s.tx → s.cfg.cRx ≤ 65536 → s.cfg.cTx ≤ 65536 →
    (Ready .rxavail s →
      ∃ t, exec .rxavail s = .next t ∧ t = { s with result := t.result, pending := t.pending } ∧
        ∃ n : Nat, PortDone s t (BitVec.ofNat 24 n) ∧ n < s.cfg.cRx ∧
          (n : Int) = ((s.rx.head : Int) - s.rx.tail) % s.cfg.cRx) ∧
    (Ready .txavail s →
      ∃ t, exec .txavail s = .next t ∧ t = { s with result := t.result, pending := t.pending } ∧
        ∃ n : Nat, PortDone s t (BitVec.ofNat 24 n) ∧ n < s.cfg.cTx ∧
          (n : Int) = ((s.tx.head : Int) - s.tx.tail) % s.cfg.cTx)

/-- R147, R148, R165: RXFLUSH and TXFLUSH set tail to head, leave head and storage, and touch nothing else. -/
def Obligations.FlushEmptiesRing : Prop :=
  ∀ s : State,
    (Ready .rxflush s →
      ∃ t, exec .rxflush s = .next t ∧ t.rx = { s.rx with tail := s.rx.head } ∧ t.rx.occ s.cfg.cRx = 0 ∧
        t = { s with rx := t.rx, result := t.result, pending := t.pending } ∧ PortDone s t 0) ∧
    (Ready .txflush s →
      ∃ t, exec .txflush s = .next t ∧ t.tx = { s.tx with tail := s.tx.head } ∧ t.tx.occ s.cfg.cTx = 0 ∧
        t = { s with tx := t.tx, result := t.result, pending := t.pending } ∧ PortDone s t 0)

/-- R155: TXPUSH holds TxFull on a full ring, performing nothing; else it stores the byte in slot head and nothing else changes. It never drops the byte. -/
def Obligations.TxpushStoresOrHolds : Prop :=
  ∀ (b : Byte) (s : State), Ready (.txpush b) s →
    ∃ t, exec (.txpush b) s = .next t ∧
      if (s.tx.head + 1) % s.cfg.cTx = s.tx.tail then Held (.txpush b) .txFull s t
      else
        PushedByte s.cfg.cTx b s.tx t.tx ∧ t = { s with tx := t.tx, result := t.result, pending := t.pending } ∧
        PortDone s t 0

/-- R159: TXPOP answers 0 on an empty ring and changes nothing; else it answers 0x100 | byte, tail advances, TxOut is recorded and the byte joins the TX stream (the queue `wire`, log 14). On a slot nothing wrote it faults by name (log 2). -/
def Obligations.TxpopSendsOldest : Prop :=
  ∀ s : State, Ready .txpop s →
    (s.tx.head = s.tx.tail →
      ∃ t, exec .txpop s = .next t ∧ t = { s with result := t.result, pending := t.pending } ∧ PortDone s t 0) ∧
    (∀ b, s.tx.head ≠ s.tx.tail → Memory.read s.tx.buf s.tx.tail = some b →
      ∃ t, exec .txpop s = .next t ∧ PoppedByte s.cfg.cTx s.tx t.tx ∧
        t = { s with tx := t.tx, history := s.history ++ [.txOut b], wire := s.wire ++ [b], result := t.result,
                     pending := t.pending } ∧
        PortDone s t (BitVec.ofNat 24 (256 + b.toNat))) ∧
    (s.tx.head ≠ s.tx.tail → Memory.read s.tx.buf s.tx.tail = none →
      exec .txpop s = .fault (.unwrittenSlot .tx s.tx.tail))

/-- R35, R36, R141, R143, R145, R147: a ring in order is a queue of at most C − 1 bytes: a push appends unless it is full, a pop takes the front, occupancy is the length, a flush empties it. -/
def Obligations.RingIsBoundedQueue : Prop :=
  ∀ (C : Nat) (r : Ring), RingOk C r →
    (r.contents C).length ≤ C - 1 ∧ r.occ C = (r.contents C).length ∧
    (∀ b, if (r.contents C).length = C - 1 then r.push C b = (false, r)
      else ∃ r', r.push C b = (true, r') ∧ RingOk C r' ∧ r'.contents C = r.contents C ++ [some b]) ∧
    (r.contents C = [] → r.pop C = .empty) ∧
    (∀ x q, r.contents C = x :: q →
      ∃ b r', x = some b ∧ r.pop C = .byte b r' ∧ RingOk C r' ∧ r'.contents C = q) ∧
    RingOk C r.flush ∧ r.flush.contents C = []

/-- R149: pushing at most C − 1 bytes into an empty ring and popping the same count returns them in the same order. -/
def Obligations.RingReturnsBytesInOrder : Prop :=
  ∀ (C : Nat) (r : Ring) (bs : List Byte), RingOk C r → r.head = r.tail → bs.length ≤ C - 1 →
    ∃ r', Ring.popMany C bs.length (Ring.pushMany C bs r).2 = some (bs, r') ∧ r'.head = r'.tail

/-- R150: from any empty state the k-th push without a pop is accepted for k ≤ C − 1 and dropped for k ≥ C, and the ring then holds the first C − 1 bytes pushed. -/
def Obligations.RingDropsBeyondCapacity : Prop :=
  ∀ (C : Nat) (r : Ring) (bs : List Byte), RingOk C r → r.head = r.tail →
    (∀ k, k < bs.length → (Ring.pushMany C bs r).1[k]? = some (decide (k + 1 ≤ C - 1))) ∧
    (Ring.pushMany C bs r).2.contents C = (bs.take (C - 1)).map some

/-- R156: a full TX ring stops being full only by a TXPOP that returns a byte or by a TXFLUSH, both TXI's; and a TXPOP on a full ring in order does it. -/
def Obligations.TxFullLiftedByTxiOnly : Prop :=
  ∀ s : State, RingOk s.cfg.cTx s.tx → 2 ≤ s.cfg.cTx → s.tx.isFull s.cfg.cTx = true →
    (∀ (i : Instr) (t : State), exec i s = .next t → t.tx.isFull t.cfg.cTx = false →
      (i = .txpop ∨ i = .txflush) ∧ s.issuer = .txi) ∧
    (Ready .txpop s → ∃ t, exec .txpop s = .next t ∧ t.tx.isFull t.cfg.cTx = false) ∧
    (Ready .txflush s → ∃ t, exec .txflush s = .next t ∧ t.tx.isFull t.cfg.cTx = false)

/-! ## Sampler -/

/-- R181, R182, R183: SMPA keeps the raw reading and computes s = (raw·W + acc·(DEN − W)) div DEN; if s differs from acc it stores s, loads the analog packet, sets cyc_emit and records Emit, else nothing more. The answer 0 in the step that loads the stage is the model's choice (log 7): by R224 the operation is complete for FG's stream when the stage empties. -/
def Obligations.SmpaSmooths : Prop :=
  ∀ (k : Fin 6) (raw : BitVec 10) (s : State) (v : Nat), s.cfg.Valid → Ready (.smpa (BitVec.ofNat 4 k) raw) s →
    v = (raw.toNat * s.cfg.w + s.acc[k].toNat * (s.cfg.den - s.cfg.w)) / s.cfg.den →
    ∃ t, exec (.smpa (BitVec.ofNat 4 k) raw) s = .next t ∧ PortDone s t 0 ∧
      t.rawLatest = s.rawLatest.set k raw ∧ t.acc[k].toNat = v ∧ (∀ j : Fin 6, j ≠ k → t.acc[j] = s.acc[j]) ∧
      if v = s.acc[k].toNat then
        t = { s with rawLatest := t.rawLatest, result := t.result, pending := t.pending }
      else
        StageHolds (.analog (BitVec.ofNat 6 k) (BitVec.ofNat 14 v)) t ∧
        t = { s with rawLatest := t.rawLatest, acc := t.acc, cycEmit := true, encBuf := t.encBuf, encLen := t.encLen,
                     encPos := t.encPos,
                     history := s.history ++ [.emit (.analog (BitVec.ofNat 6 k) (BitVec.ofNat 14 v))],
                     result := t.result, pending := t.pending }

/-- R184: the smoothed value lies between raw and acc inclusive, so it needs no narrowing; no intermediate wraps. -/
def Obligations.SmoothingStaysBetween : Prop :=
  ∀ (c : Config) (raw acc : BitVec 10), c.Valid →
    (smooth c raw acc).toNat = (raw.toNat * c.w + acc.toNat * (c.den - c.w)) / c.den ∧
    min raw.toNat acc.toNat ≤ (smooth c raw acc).toNat ∧ (smooth c raw acc).toNat ≤ max raw.toNat acc.toNat ∧
    raw.toNat * c.w + acc.toNat * (c.den - c.w) ≤ Config.rawMax * c.den ∧
    Config.rawMax * Config.default.den = 1023000 ∧ 1023000 < 2 ^ 20

/-- R194: the closed forms of one step: from below a + ((r − a)·W) div DEN, from above a − ceil((a − r)·W / DEN), which is less than a. -/
def Obligations.SmoothingClosedForms : Prop :=
  ∀ (c : Config) (raw acc : BitVec 10), c.Valid →
    (acc.toNat ≤ raw.toNat →
      (smooth c raw acc).toNat = acc.toNat + (raw.toNat - acc.toNat) * c.w / c.den ∧
      (smooth c raw acc = acc ↔ (raw.toNat - acc.toNat) * c.w < c.den)) ∧
    (raw.toNat < acc.toNat →
      (smooth c raw acc).toNat = acc.toNat - ((acc.toNat - raw.toNat) * c.w + c.den - 1) / c.den ∧
      (smooth c raw acc).toNat < acc.toNat)

/-- R194: with the defaults a steady raw reading r drives the accumulator, within 1023 steps, from below to a value in r − 9 .. r and from above to r exactly, where it stays. -/
def Obligations.SmoothingSettles : Prop :=
  ∀ (k : Fin 6) (raw : BitVec 10) (s : State) (n : Nat), s.cfg = Config.default → 1023 ≤ n →
    (s.acc[k].toNat ≤ raw.toNat →
      (smoothRun k raw n s).acc[k].toNat ≤ raw.toNat ∧ raw.toNat ≤ (smoothRun k raw n s).acc[k].toNat + 9 ∧
      (smoothRun k raw (n + 1) s).acc[k] = (smoothRun k raw n s).acc[k]) ∧
    (raw.toNat < s.acc[k].toNat → (smoothRun k raw n s).acc[k] = raw)

/-- R185, R186: SMPD emits when the level differs from the reported one and the old timer is 0: it reports the level, leaves the timer at DEB − 1, loads the digital packet, sets cyc_emit and records Emit. Otherwise only the timer moves, one down to 0. The answer 0 in the step that loads the stage is the model's choice (log 7): by R224 the operation is complete for FG's stream when the stage empties. -/
def Obligations.SmpdDebounces : Prop :=
  ∀ (k : Fin 10) (raw : BitVec 1) (s : State), Ready (.smpd (BitVec.ofNat 4 k) raw) s →
    ∃ t, exec (.smpd (BitVec.ofNat 4 k) raw) s = .next t ∧ PortDone s t 0 ∧
      (∀ j : Fin 10, j ≠ k → t.dtimer[j] = s.dtimer[j] ∧ t.rep[j] = s.rep[j]) ∧
      if raw ≠ s.rep[k] ∧ s.dtimer[k] = 0 then
        t.rep[k] = raw ∧ t.dtimer[k] = s.cfg.deb - 1 ∧
        StageHolds (.digital (BitVec.ofNat 6 k) (BitVec.ofNat 7 raw.toNat)) t ∧
        t = { s with rep := t.rep, dtimer := t.dtimer, cycEmit := true, encBuf := t.encBuf, encLen := t.encLen,
                     encPos := t.encPos,
                     history := s.history ++ [.emit (.digital (BitVec.ofNat 6 k) (BitVec.ofNat 7 raw.toNat))],
                     result := t.result, pending := t.pending } ∧
        t.encBuf[2] = s.encBuf[2]
      else
        t.dtimer[k] = s.dtimer[k] - 1 ∧
        t = { s with dtimer := t.dtimer, result := t.result, pending := t.pending }

/-- R188: after an SMPD of a channel that emits, its next DEB − 1 SMPDs do not emit, and the one after them emits exactly when its level differs from the reported one. -/
def Obligations.DebounceWindow : Prop :=
  ∀ (k : Fin 10) (raw : BitVec 1) (s : State) (raws : List (BitVec 1)) (next : BitVec 1),
    1 ≤ s.cfg.deb → SmpdEmits k raw s →
    (raws.length < s.cfg.deb - 1 → ¬ SmpdEmits k next (debounceRun k (raw :: raws) s)) ∧
    (raws.length = s.cfg.deb - 1 →
      (SmpdEmits k next (debounceRun k (raw :: raws) s) ↔ next ≠ (debounceRun k (raw :: raws) s).rep[k]))

/-- R189: a level held against the reported one until the timer is 0 is reported then; a glitch that returns to it before is never reported. -/
def Obligations.DeferredReport : Prop :=
  ∀ (k : Fin 10) (s : State) (raws : List (BitVec 1)) (next : BitVec 1),
    raws.length = s.dtimer[k] →
    (debounceRun k raws s).rep[k] = s.rep[k] ∧ (debounceRun k raws s).history = s.history ∧
    ((debounceRun k (raws ++ [next]) s).rep[k] = next) ∧
    (debounceRun k (raws ++ [next]) s).history =
      if next = s.rep[k] then s.history
      else s.history ++ [.emit (.digital (BitVec.ofNat 6 k) (BitVec.ofNat 7 next.toNat))]

/-- R190: CYCEND reloads act_timer to ACT_CYCLES after a cycle with an emission, else counts it down to 0; it clears cyc_emit and changes nothing else. -/
def Obligations.CycendUpdatesActivity : Prop :=
  ∀ s : State, Ready .cycend s →
    ∃ t, exec .cycend s = .next t ∧ PortDone s t 0 ∧
      t.actTimer = (if s.cycEmit then s.cfg.actCycles else s.actTimer - 1) ∧ t.cycEmit = false ∧
      t = { s with actTimer := t.actTimer, cycEmit := false, result := t.result, pending := t.pending }

/-- R191: activity_out is 1 after the CYCEND of a cycle with an emission and after the next ACT_CYCLES − 1 CYCENDs without one, then 0; no other operation changes it. -/
def Obligations.ActivityLastsItsCycles : Prop :=
  (∀ (s : State) (n : Nat), Ready .cycend s → s.cycEmit = true →
    ∃ t, cycendRun (n + 1) s = some t ∧ activityOut t = decide (n < s.cfg.actCycles)) ∧
  ∀ (i : Instr) (s t : State), i ≠ .cycend → exec i s = .next t → activityOut t = activityOut s

/-! ## Encoder -/

/-- R221, R222, R223: ENCA and ENCD load the stage with their packet's wire bytes, none pushed yet; they set no cyc_emit, record nothing and touch nothing else. The answer 0 in this step is the model's choice (log 7): by R224 the operation is complete for FG's stream when the stage empties. -/
def Obligations.EncodersLoadStage : Prop :=
  (∀ (k : Fin 6) (v : BitVec 10) (s : State), Ready (.enca (BitVec.ofNat 4 k) v) s →
    ∃ t, exec (.enca (BitVec.ofNat 4 k) v) s = .next t ∧ PortDone s t 0 ∧
      StageHolds (.analog (BitVec.ofNat 6 k) (BitVec.ofNat 14 v.toNat)) t ∧
      t = { s with encBuf := t.encBuf, encLen := t.encLen, encPos := t.encPos, result := t.result,
                   pending := t.pending }) ∧
  (∀ (k : Fin 10) (v : BitVec 1) (s : State), Ready (.encd (BitVec.ofNat 4 k) v) s →
    ∃ t, exec (.encd (BitVec.ofNat 4 k) v) s = .next t ∧ PortDone s t 0 ∧
      StageHolds (.digital (BitVec.ofNat 6 k) (BitVec.ofNat 7 v.toNat)) t ∧ t.encBuf[2] = s.encBuf[2] ∧
      t = { s with encBuf := t.encBuf, encLen := t.encLen, encPos := t.encPos, result := t.result,
                   pending := t.pending })

/-- R224: while the stage is busy FG's next step pushes enc_buf[enc_pos] into the TX ring and advances, emptying the stage after the last byte; on a full ring FG holds TxFull and nothing but its pending slot changes. -/
def Obligations.StagePushesNextByte : Prop :=
  ∀ (s : State) (b : Byte) (m : Move), stageBusy s = true → m = .stage ∨ m = .run .fg →
    s.encBuf[s.encPos]? = some b →
    ∃ t, runMove m s = .next t ∧ t.pending.txi = s.pending.txi ∧ t.pending.rxi = s.pending.rxi ∧
      t.pending.rd = s.pending.rd ∧
      if (s.tx.head + 1) % s.cfg.cTx = s.tx.tail then
        t = { s with pending := t.pending } ∧
        t.pending.fg = (if s.pending.fg = none then some ⟨.stage, .txFull⟩ else s.pending.fg)
      else
        PushedByte s.cfg.cTx b s.tx t.tx ∧
        (if s.encPos + 1 = s.encLen then t.encLen = 0 ∧ t.encPos = 0
         else t.encLen = s.encLen ∧ t.encPos = s.encPos + 1) ∧
        (∀ it why, s.pending.fg = some ⟨.item it, why⟩ → t.pending.fg = s.pending.fg) ∧
        ((∀ it why, s.pending.fg ≠ some ⟨.item it, why⟩) → t.pending.fg = none) ∧
        t = { s with tx := t.tx, encLen := t.encLen, encPos := t.encPos, pending := t.pending }

/-- R224, R229: with room for the whole packet, as many stage pushes as the loaded packet has bytes put its bytes behind those of the TX ring, in wire order, and leave the stage empty; nothing else but FG's pending slot (log 6) changes. -/
def Obligations.StagePushesWholePacket : Prop :=
  ∀ (e : Event) (s : State), RingOk s.cfg.cTx s.tx → s.encPos = 0 → s.encLen = (wireBytes e).length →
    (∀ k, k < s.encLen → s.encBuf[k]? = (wireBytes e)[k]?) → s.tx.occ s.cfg.cTx + s.encLen ≤ s.cfg.cTx - 1 →
    ∃ t, stagePush^[s.encLen] s = t ∧
      t.tx.contents s.cfg.cTx = s.tx.contents s.cfg.cTx ++ (wireBytes e).map some ∧ stageBusy t = false ∧
      t = { s with tx := t.tx, encLen := 0, encPos := 0, pending := t.pending } ∧
      t.pending.txi = s.pending.txi ∧ t.pending.rxi = s.pending.rxi ∧ t.pending.rd = s.pending.rd

/-- R225: while the stage is busy every operation of FG's stream holds EncBusy and performs nothing. -/
def Obligations.EncBusyHoldsForeground : Prop :=
  ∀ (i : Instr) (s : State), WellFormed i → owns i .fg = true → s.issuer = .fg → stageBusy s = true →
    ∃ t, exec i s = .next t ∧ Held i .encBusy s t

/-- R227: the header byte the encoder makes has bit 7 set, every payload byte has it clear, for every event; and in the producer range the bytes are those R227 lists. -/
def Obligations.HeadersAloneHaveBit7 : Prop :=
  (∀ e : Event, (headerByte e).getLsbD 7 = true ∧ ∀ p ∈ payloadBytes e, p.getLsbD 7 = false) ∧
  ∀ e : Event, Producible e →
    match e with
    | .analog _ _ =>
      0x80 ≤ (headerByte e).toNat ∧ (headerByte e).toNat ≤ 0x85 ∧
      ∃ h l, payloadBytes e = [h, l] ∧ h.toNat ≤ 0x07 ∧ l.toNat ≤ 0x7F
    | .digital _ _ =>
      0xC0 ≤ (headerByte e).toNat ∧ (headerByte e).toNat ≤ 0xC9 ∧
      ∃ v, payloadBytes e = [v] ∧ v.toNat ≤ 0x01

/-! ## Decoder -/

/-- R241 to R245, R248: DECB makes the transition its byte and the decoder's state have in the table, and touches nothing but the decoder, the history and its port. -/
def Obligations.DecbFollowsTable : Prop :=
  ∀ (b : Byte) (s : State), Ready (.decb b) s →
    ∃ t, exec (.decb b) s = .next t ∧ DecoderFrame s t ∧ DecoderStep b s t

/-- R101, R248: the wire byte rows make the decoder's transition on their byte: HDR_A on 0x80 + c, HDR_D on 0xC0 + c, PAYLOAD on p. -/
def Obligations.WireBytesFollowTable : Prop :=
  (∀ (c : BitVec 6) (s : State), Ready (.hdrA c) s →
    ∃ t, exec (.hdrA c) s = .next t ∧ DecoderFrame s t ∧ DecoderStep (BitVec.ofNat 8 (128 + c.toNat)) s t) ∧
  (∀ (c : BitVec 6) (s : State), Ready (.hdrD c) s →
    ∃ t, exec (.hdrD c) s = .next t ∧ DecoderFrame s t ∧ DecoderStep (BitVec.ofNat 8 (192 + c.toNat)) s t) ∧
  (∀ (p : BitVec 7) (s : State), Ready (.payload p) s →
    ∃ t, exec (.payload p) s = .next t ∧ DecoderFrame s t ∧ DecoderStep (BitVec.ofNat 8 p.toNat) s t)

/-- R105, R106, R249: a whole packet, from any decoder state, gives exactly its own event, analog value h·128 + l, and leaves the decoder in Idle. -/
def Obligations.WholePacketGivesItsEvent : Prop :=
  (∀ (c : BitVec 6) (h l : BitVec 7) (s : State), Ready (.pktA c h l) s →
    ∃ t, exec (.pktA c h l) s = .next t ∧ DecoderFrame s t ∧ t.decState = .idle ∧ t.decCh = 0 ∧ t.decHi = 0 ∧
      t.history = s.history ++ [.event (.analog c (BitVec.ofNat 14 (h.toNat * 128 + l.toNat)))] ∧
      PortDone s t (BitVec.ofNat 24 (0x800000 + c.toNat * 65536 + h.toNat * 128 + l.toNat))) ∧
  (∀ (c : BitVec 6) (v : BitVec 7) (s : State), Ready (.pktD c v) s →
    ∃ t, exec (.pktD c v) s = .next t ∧ DecoderFrame s t ∧ t.decState = .idle ∧ t.decCh = 0 ∧ t.decHi = 0 ∧
      t.history = s.history ++ [.event (.digital c v)] ∧
      PortDone s t (BitVec.ofNat 24 (0xC00000 + c.toNat * 65536 + v.toNat)))

/-- R246, R247: DECNEXT pops the oldest byte and decodes it; on an empty ring it takes end of stream if eos is 1 (decoder cleared without an event, rd_done set, EndOfStream recorded, answer 0x008000), else it holds RxEmpty. On a slot nothing wrote it faults by name (log 2). -/
def Obligations.DecnextReadsOrEndsOrHolds : Prop :=
  ∀ s : State, Ready .decnext s →
    (∀ b, s.rx.head ≠ s.rx.tail → Memory.read s.rx.buf s.rx.tail = some b →
      ∃ t, exec .decnext s = .next t ∧ PoppedByte s.cfg.cRx s.rx t.rx ∧ DecoderStep b s t ∧
        DecoderFrame { s with rx := t.rx } t) ∧
    (s.rx.head = s.rx.tail → s.eos = true →
      ∃ t, exec .decnext s = .next t ∧ PortDone s t 0x008000 ∧
        t = { s with decState := .idle, decCh := 0, decHi := 0, rdDone := true,
                     history := s.history ++ [.endOfStream], result := t.result, pending := t.pending }) ∧
    (s.rx.head = s.rx.tail → s.eos = false → ∃ t, exec .decnext s = .next t ∧ Held .decnext .rxEmpty s t) ∧
    (s.rx.head ≠ s.rx.tail → Memory.read s.rx.buf s.rx.tail = none →
      exec .decnext s = .fault (.unwrittenSlot .rx s.rx.tail))

/-- R250: feeding the wire bytes of an event to the decoder, from any decoder state, emits exactly that event, at the last byte, and ends in Idle. It holds for every event the wire can carry, the producer's among them. -/
def Obligations.DecodeOfEncodedEvent : Prop :=
  ∀ (e : Event) (s : State),
    (decodedEvents (wireBytes e) s).1 = [e] ∧ (decodedEvents (wireBytes e) s).2.decState = .idle ∧
    ((decodedEvents ((wireBytes e).dropLast) s).1 = [])

/-- R250, R251: from Idle, a stream of whole encoder packets decodes to exactly their events; with one byte deleted anywhere, only to events of the packets, in order, none altered. -/
def Obligations.OneLostByteOnlyRemovesEvents : Prop :=
  ∀ (es : List Event) (s : State) (n : Nat), s.decState = .idle →
    (decodedEvents (es.flatMap wireBytes) s).1 = es ∧
    (decodedEvents ((es.flatMap wireBytes).eraseIdx n) s).1.Sublist es

/-- R112: the fields of an event's result word. -/
def Obligations.EventWordFields : Prop :=
  (∀ (ch : BitVec 6) (v : BitVec 14),
    (eventWord (.analog ch v)).toNat = 0x800000 + ch.toNat * 65536 + v.toNat) ∧
  (∀ (ch : BitVec 6) (v : BitVec 7),
    (eventWord (.digital ch v)).toNat = 0xC00000 + ch.toNat * 65536 + v.toNat)

/-! ## Checks, latches, reset -/

/-- R282: an operation of a command port issued by the wrong agent sets the fault latch, with the operation and the agent where it was clear; it gives no result and changes no state of the block. The wire rows, which R281 does not list, have `WrongAgentOnWireRow`. -/
def Obligations.WrongAgentRaisesViolation : Prop :=
  ∀ (i : Instr) (s : State), IsCommand i → WellFormed i → (∀ low, i ≠ .reservedOp0 low) →
    owns i s.issuer = false →
    ∃ t, exec i s = .next t ∧ t.faultLatch ≠ none ∧
      (s.faultLatch = none → t.faultLatch = some (.ownershipViolation i s.issuer)) ∧
      t = { s with faultLatch := t.faultLatch, pending := t.pending } ∧
      ∀ b, b ≠ s.issuer → t.pending.get b = s.pending.get b

/-- R281: the ownership table. -/
def Obligations.OwnershipTable : Prop :=
  (∀ a b, owns (.rxpush b) a = true ↔ a = .rxi) ∧
  (∀ a, (owns .rxpop a = true ↔ a = .rd) ∧ (owns .rxflush a = true ↔ a = .rd)) ∧
  (∀ a b, owns (.txpush b) a = true ↔ a = .fg) ∧
  (∀ a, (owns .txpop a = true ↔ a = .txi) ∧ (owns .txflush a = true ↔ a = .txi)) ∧
  (∀ a ch v, (owns (.enca ch v) a = true ↔ a = .fg) ∧ (owns (.smpa ch v) a = true ↔ a = .fg)) ∧
  (∀ a ch v, (owns (.encd ch v) a = true ↔ a = .fg) ∧ (owns (.smpd ch v) a = true ↔ a = .fg)) ∧
  (∀ a, owns .cycend a = true ↔ a = .fg) ∧
  (∀ a b, owns (.decb b) a = true ↔ a = .rd) ∧ (∀ a, owns .decnext a = true ↔ a = .rd) ∧
  (∀ a, owns .rxavail a = true ∧ owns .txavail a = true)

/-- R247, R283: an operation RD may issue, issued by RD after end of stream, is refused AfterEnd and changes nothing else. That a set latch keeps its reason and the operation is no longer pending is the model's choice (log 5); that RXAVAIL and TXAVAIL are refused too is the model's deduction (log 17); that the wire rows HDR_A, HDR_D, PAYLOAD, PKT_A and PKT_D are RD's and are refused too is the model's choice (log 10). -/
def Obligations.ReaderAfterEndIsRefused : Prop :=
  ∀ (i : Instr) (s : State), WellFormed i → owns i .rd = true → s.issuer = .rd → s.rdDone = true →
    ∃ t, exec i s = .next t ∧ t.refusalLatch = s.refusalLatch.or (some .afterEnd) ∧
      t = { s with refusalLatch := t.refusalLatch, pending := t.pending } ∧ PortCleared s t

/-- R118, R283: an instruction whose channel is out of range, and the reserved word, are refused before ownership, AfterEnd or EncBusy are looked at, and change nothing else. That a set latch keeps its reason and the operation is no longer pending is the model's choice (log 5). -/
def Obligations.IllegalInstrIsRefusedFirst : Prop :=
  ∀ (i : Instr) (s : State), i.wellFormed = false ∨ (∃ low, i = .reservedOp0 low) →
    ∃ t, exec i s = .next t ∧ t.refusalLatch = s.refusalLatch.or (some (.illegalCommand (commandWord i))) ∧
      t = { s with refusalLatch := t.refusalLatch, pending := t.pending } ∧ PortCleared s t

/-- The model's choice (log 5): a fault latch that is set keeps its first violation, and the raised operation is no longer pending; for the wire rows, that they raise at all is the model's choice (log 10). -/
def Obligations.RaisedOperationIsConsumed : Prop :=
  ∀ (i : Instr) (s : State), WellFormed i → (∀ low, i ≠ .reservedOp0 low) → owns i s.issuer = false →
    ∃ t, exec i s = .next t ∧ (∀ v, s.faultLatch = some v → t.faultLatch = some v) ∧ PortCleared s t

/-- R310: reset, from any state: every register R310 lists takes its value, every held operation is abandoned, `Reset` is recorded; the latches are not cleared. -/
def Obligations.ResetSetsBlock : Prop :=
  ∀ (e : Bool) (s : State), ∃ t, runMove (.rst e) s = .next t ∧
    t.rx.head = 0 ∧ t.rx.tail = 0 ∧ t.tx.head = 0 ∧ t.tx.tail = 0 ∧
    (∀ i : Fin 6, t.rawLatest[i] = 0 ∧ t.acc[i] = 0) ∧ (∀ j : Fin 10, t.rep[j] = 0 ∧ t.dtimer[j] = 0) ∧
    t.actTimer = 0 ∧ t.cycEmit = false ∧ t.encLen = 0 ∧ t.encPos = 0 ∧ t.decState = .idle ∧ t.decCh = 0 ∧
    t.decHi = 0 ∧ t.rdDone = false ∧ (∀ a, t.pending.get a = none) ∧ t.history = s.history ++ [.reset] ∧
    t.faultLatch = s.faultLatch ∧ t.refusalLatch = s.refusalLatch

/-- The model's choices at reset: ring storage holds no value (log 2), enc_buf is zero (log 3), the result ports keep their word (log 7), eos is what the environment presents (log 13); the configuration, the raw inputs, the streams, the schedule and the wire are outside the block and stay (log 4). -/
def Obligations.ResetLeavesSurroundings : Prop :=
  ∀ (e : Bool) (s : State), ∃ t, runMove (.rst e) s = .next t ∧
    (∀ k, Memory.read t.rx.buf k = none ∧ Memory.read t.tx.buf k = none) ∧ (∀ i : Fin 3, t.encBuf[i] = 0) ∧
    t.eos = e ∧ t.result = s.result ∧ t.cfg = s.cfg ∧ t.ain = s.ain ∧ t.din = s.din ∧ t.streams = s.streams ∧
    t.schedule = s.schedule ∧ t.wire = s.wire ∧ t.issuer = s.issuer

/-- R314: while a channel's registers hold what reset leaves in them, its SMPD at level 1 emits Digital(j, 1) and at level 0 nothing; its SMPA of r emits Analog(i, (r·W) div DEN) exactly when r·W ≥ DEN, else acc stays 0. -/
def Obligations.FirstSamplesAfterReset : Prop :=
  ∀ s : State, s.cfg.Valid →
    (∀ j : Fin 10, s.rep[j] = 0 → s.dtimer[j] = 0 →
      (debounceStep j 1 s).history = s.history ++ [.emit (.digital (BitVec.ofNat 6 j) 1)] ∧
      (debounceStep j 0 s).history = s.history) ∧
    (∀ (i : Fin 6) (r : BitVec 10), s.acc[i] = 0 →
      if s.cfg.den ≤ r.toNat * s.cfg.w then
        (smoothStep i r s).history =
          s.history ++ [.emit (.analog (BitVec.ofNat 6 i) (BitVec.ofNat 14 (r.toNat * s.cfg.w / s.cfg.den)))]
      else (smoothStep i r s).history = s.history ∧ (smoothStep i r s).acc[i] = 0)

/-! ## The whole machine -/

/-- R9, R84: an issued code that decodes to i runs exec of i with the agent as issuer and the code taken from its stream; the same when the agent is scheduled and the stage push does not come first. -/
def Obligations.StepRunsDecodedInstr : Prop :=
  ∀ (s : State) (a : Agent) (c : Code) (i : Instr) (rest : List Item) (moves : List Move),
    s.streams.get a = .code c :: rest → s.pending.get a = none → decode c = .ok i →
    (s.schedule = .issue a :: moves ∨ s.schedule = .run a :: moves ∧ (a = .fg → stageBusy s = false)) →
    step s = exec i { s with schedule := moves, streams := s.streams.set a rest, issuer := a }

/-- R18, R54, R156: an agent with a held operation, issuing or scheduled when the stage push does not come first, tries that operation again, and its stream waits. A held code runs exec of what it decodes to. A held port sample reads its input at this try (R127, log 18); with the stage busy it stays held as a port sample (R225). A held stage push is tried as the stage push; in another slot than FG's, where no step puts it, it is none (the pending slot's form: log 6). -/
def Obligations.HeldOperationIsRetried : Prop :=
  ∀ (s : State) (a : Agent) (op : PendingOp) (why : HoldReason) (moves : List Move),
    s.pending.get a = some ⟨op, why⟩ →
    (s.schedule = .issue a :: moves ∨ s.schedule = .run a :: moves ∧ (a = .fg → stageBusy s = false)) →
    (∀ c i, op = .item (.code c) → decode c = .ok i →
      step s = exec i { s with schedule := moves, issuer := a }) ∧
    (∀ ch : Fin 6, op = .item (.sampleA ch) →
      if a = .fg ∧ stageBusy s = true then
        step s = .next { s with schedule := moves, issuer := a, pending := s.pending.set a (some ⟨op, .encBusy⟩) }
      else step s = exec (.smpa (BitVec.ofNat 4 ch) s.ain[ch]) { s with schedule := moves, issuer := a }) ∧
    (∀ ch : Fin 10, op = .item (.sampleD ch) →
      if a = .fg ∧ stageBusy s = true then
        step s = .next { s with schedule := moves, issuer := a, pending := s.pending.set a (some ⟨op, .encBusy⟩) }
      else step s = exec (.smpd (BitVec.ofNat 4 ch) s.din[ch]) { s with schedule := moves, issuer := a }) ∧
    (op = .stage →
      step s = if a = .fg then runMove .stage { s with schedule := moves } else .next { s with schedule := moves })

/-- R127: a SMPA or SMPD of the CYCLE macro without operands takes its raw value from ain or din at the step that performs it. -/
def Obligations.PortSamplesReadInputsNow : Prop :=
  ∀ (s : State) (rest : List Item) (moves : List Move),
    s.pending.fg = none → stageBusy s = false → s.schedule = .run .fg :: moves →
    (∀ i : Fin 6, s.streams.fg = .sampleA i :: rest →
      step s = exec (.smpa (BitVec.ofNat 4 i) s.ain[i])
        { s with schedule := moves, streams := s.streams.set .fg rest, issuer := .fg }) ∧
    (∀ j : Fin 10, s.streams.fg = .sampleD j :: rest →
      step s = exec (.smpd (BitVec.ofNat 4 j) s.din[j])
        { s with schedule := moves, streams := s.streams.set .fg rest, issuer := .fg })

/-- R56, R35, R38, R40: every step keeps the invariant of the block. -/
def Obligations.StepKeepsInv : Prop := ∀ s t : State, BlockInv s → step s = .next t → BlockInv t

/-- R56: the reset state meets the invariant. -/
def Obligations.ResetMeetsInv : Prop := BlockInv State.reset

/-- R52: in a state that meets the invariant no step faults: no pop reads a slot nothing wrote. -/
def Obligations.NoStepFaults : Prop := ∀ s : State, BlockInv s → NoFault (step s)

/-- R241, R247, R310: every step keeps the decoder's registers clean. -/
def Obligations.StepKeepsDecoderClean : Prop :=
  ∀ s t : State, DecoderClean s → step s = .next t → DecoderClean t

/-- R58, R59, R49: no step clears a latch, shortens or rewrites the history, or writes the configuration. That a set latch keeps the very violation or reason that set it is the model's choice (log 5). -/
def Obligations.LatchesHistoryConfigKept : Prop :=
  ∀ s t : State, step s = .next t →
    (∀ v, s.faultLatch = some v → t.faultLatch = some v) ∧
    (∀ v, s.refusalLatch = some v → t.refusalLatch = some v) ∧
    (∃ more, t.history = s.history ++ more) ∧ t.cfg = s.cfg

/-- R50, R281: each piece of state is written only by the operations and the agent R50 lists; the wire byte rows, RD's (log 10), write the decoder. -/
def Obligations.StateHasItsWritersOnly : Prop :=
  ∀ (i : Instr) (s t : State), exec i s = .next t →
    (t.rx.buf ≠ s.rx.buf ∨ t.rx.head ≠ s.rx.head → (∃ b, i = .rxpush b) ∧ s.issuer = .rxi) ∧
    (t.rx.tail ≠ s.rx.tail → (i = .rxpop ∨ i = .rxflush ∨ i = .decnext) ∧ s.issuer = .rd) ∧
    (t.tx.buf ≠ s.tx.buf ∨ t.tx.head ≠ s.tx.head → (∃ b, i = .txpush b) ∧ s.issuer = .fg) ∧
    (t.tx.tail ≠ s.tx.tail → (i = .txpop ∨ i = .txflush) ∧ s.issuer = .txi) ∧
    (t.rawLatest ≠ s.rawLatest ∨ t.acc ≠ s.acc → (∃ ch raw, i = .smpa ch raw) ∧ s.issuer = .fg) ∧
    (t.rep ≠ s.rep ∨ t.dtimer ≠ s.dtimer → (∃ ch raw, i = .smpd ch raw) ∧ s.issuer = .fg) ∧
    (t.actTimer ≠ s.actTimer → i = .cycend ∧ s.issuer = .fg) ∧
    (t.cycEmit ≠ s.cycEmit →
      ((∃ ch raw, i = .smpa ch raw) ∨ (∃ ch raw, i = .smpd ch raw) ∨ i = .cycend) ∧ s.issuer = .fg) ∧
    (t.encBuf ≠ s.encBuf ∨ t.encLen ≠ s.encLen ∨ t.encPos ≠ s.encPos →
      ((∃ ch v, i = .enca ch v) ∨ (∃ ch v, i = .encd ch v) ∨ (∃ ch raw, i = .smpa ch raw) ∨
        (∃ ch raw, i = .smpd ch raw)) ∧ s.issuer = .fg) ∧
    (t.decState ≠ s.decState ∨ t.decCh ≠ s.decCh ∨ t.decHi ≠ s.decHi →
      ((∃ b, i = .decb b) ∨ i = .decnext ∨ (∃ c, i = .hdrA c) ∨ (∃ c, i = .hdrD c) ∨ (∃ p, i = .payload p) ∨
        (∃ c h l, i = .pktA c h l) ∨ (∃ c v, i = .pktD c v)) ∧ s.issuer = .rd) ∧
    (t.rdDone ≠ s.rdDone → i = .decnext ∧ s.issuer = .rd)

/-- R31, R49, R114: no operation writes the configuration, the input ports, the issuer, the streams or the schedule; only TXPOP lengthens the TX stream (the queue `wire`, log 14). -/
def Obligations.OperationsLeaveEnvironment : Prop :=
  ∀ (i : Instr) (s t : State), exec i s = .next t →
    t.cfg = s.cfg ∧ t.ain = s.ain ∧ t.din = s.din ∧ t.eos = s.eos ∧ t.issuer = s.issuer ∧ t.streams = s.streams ∧
    t.schedule = s.schedule ∧ (i ≠ .txpop → t.wire = s.wire)

/-- R81, R82: under Loopback a byte reaches RXI's stream only from the front of the wire, unchanged; an RXPUSH from anywhere else is no move. The queue `wire`, the moves on it, an offer as an RXPUSH at the end of RXI's stream, and the refusal `wireModelForbids` of a move WIRE_MODEL does not admit are the model's choice (log 14). -/
def Obligations.LoopbackOffersWireBytes : Prop :=
  ∀ (s : State) (b : Byte) (rest : List Byte), s.cfg.wireModel = .loopback →
    (s.wire = b :: rest →
      runMove .deliver s =
        .next { s with wire := rest, streams := s.streams.set .rxi (s.streams.rxi ++ [.code (encode (.rxpush b))]) }) ∧
    (s.wire = [] → runMove .deliver s = .refused .wireModelForbids) ∧
    (∀ c, runMove (.supply .rxi (.code (encode (.rxpush c)))) s = .refused .wireModelForbids) ∧
    (∀ c, runMove (.corrupt c) s = .refused .wireModelForbids) ∧ runMove .lose s = .refused .wireModelForbids

/-- R81: under Free the environment may offer RXI any byte and none comes from the wire; under LossyLoopback the front byte of the wire is offered unchanged, offered as any byte, or lost, and RXI is offered nothing else. The queue `wire`, the moves deliver, lose, corrupt and supply on it and on RXI's stream, and the refusal `wireModelForbids` of a move WIRE_MODEL does not admit are the model's choice (log 14). -/
def Obligations.FreeAndLossyOffers : Prop :=
  ∀ (s : State) (b c : Byte) (rest : List Byte),
    (s.cfg.wireModel = .free →
      runMove (.supply .rxi (.code (encode (.rxpush c)))) s =
        .next { s with streams := s.streams.set .rxi (s.streams.rxi ++ [.code (encode (.rxpush c))]) } ∧
      runMove .deliver s = .refused .wireModelForbids ∧ runMove .lose s = .refused .wireModelForbids ∧
      runMove (.corrupt c) s = .refused .wireModelForbids) ∧
    (s.cfg.wireModel = .lossyLoopback →
      runMove (.supply .rxi (.code (encode (.rxpush c)))) s = .refused .wireModelForbids ∧
      (s.wire = b :: rest →
        runMove .deliver s =
          .next { s with wire := rest,
                         streams := s.streams.set .rxi (s.streams.rxi ++ [.code (encode (.rxpush b))]) } ∧
        runMove (.corrupt c) s =
          .next { s with wire := rest,
                         streams := s.streams.set .rxi (s.streams.rxi ++ [.code (encode (.rxpush c))]) } ∧
        runMove .lose s = .next { s with wire := rest }) ∧
      (s.wire = [] →
        runMove .deliver s = .refused .wireModelForbids ∧ runMove (.corrupt c) s = .refused .wireModelForbids ∧
        runMove .lose s = .refused .wireModelForbids))

/-- The model's choice (log 10): the wire rows HDR_A, HDR_D, PAYLOAD, PKT_A and PKT_D are RD's, as R240 makes the decoder's operations, so one issued by another agent does what R282 says of the wrong agent: it sets the fault latch, with the operation and the agent where it was clear, gives no result and changes no state of the block. -/
def Obligations.WrongAgentOnWireRow : Prop :=
  ∀ (i : Instr) (s : State), IsWireRow i → s.issuer ≠ .rd →
    ∃ t, exec i s = .next t ∧ t.faultLatch ≠ none ∧
      (s.faultLatch = none → t.faultLatch = some (.ownershipViolation i s.issuer)) ∧
      t = { s with faultLatch := t.faultLatch, pending := t.pending } ∧
      ∀ b, b ≠ s.issuer → t.pending.get b = s.pending.get b

/-- R18, R55, R224, R295: what is enabled is what scheduling the agent performs. With the stage busy FG's run is the stage push; an operation of the stream that would be performed is run by exec, and completes with a result, both latches as before; and scheduling an agent that is not enabled writes no register, no ring, no result and no history, whatever it latches or holds. A terminated RD is never enabled. What counts as enabled is the model's deduction (log 15). -/
def Obligations.EnabledAgentPerforms : Prop :=
  ∀ (a : Agent) (s : State),
    (a = .fg → stageBusy s = true → runMove (.run a) s = .next (stagePush s)) ∧
    (∀ it s' i, presented a s = some (it, s') → itemInstr it s' = some i → Performable i { s' with issuer := a } →
      runMove (.run a) s = exec i { s' with issuer := a } ∧
      ∃ t w, exec i { s' with issuer := a } = .next t ∧ PortDone { s' with issuer := a } t w ∧
        t.faultLatch = s.faultLatch ∧ t.refusalLatch = s.refusalLatch) ∧
    (¬ Enabled a s → ∀ t, runMove (.run a) s = .next t →
      t = { s with faultLatch := t.faultLatch, refusalLatch := t.refusalLatch, pending := t.pending,
                   issuer := t.issuer, streams := t.streams }) ∧
    (s.rdDone = true → ¬ Enabled .rd s)

/-- R155, R156, R295, R320: in a fair run FG does not hold TxFull for ever, and if its next step is a push into the TX ring for ever, it performs infinitely often. That a push counts as held before an attempt was made is the model's deduction (log 15). -/
def Obligations.FairRunLiftsTxFull : Prop :=
  ∀ r : Run, Fair r → 2 ≤ (r.state 0).cfg.cTx →
    (∀ n, ∃ k ≥ n, ¬ HoldsTxFull (r.state k)) ∧
    ((∃ n, ∀ k ≥ n, PushIsNext (r.state k)) → ∀ n, ∃ k ≥ n, Performs r .fg k)
end

