-- ==== Sys2Proof/Laws/PerInstr.lean ====
section
/-! SUPPORT. The per-instruction family OpField: the selector bits of each instruction's encoding are those its row of the opcode table fixes (spec/30_encoding.md R101, R116). -/

namespace Sys2Proof.Laws.OpField

/-- The value of a command row's OP field (R116). -/
def opCode : Instr → BitVec 4
  | .rxpush _ => 0x1
  | .rxpop => 0x2
  | .rxavail => 0x3
  | .rxflush => 0x4
  | .txpush _ => 0x5
  | .txpop => 0x6
  | .txavail => 0x7
  | .txflush => 0x8
  | .enca _ _ => 0x9
  | .encd _ _ => 0xA
  | .smpa _ _ => 0xB
  | .smpd _ _ => 0xC
  | .cycend => 0xD
  | .decb _ => 0xE
  | .decnext => 0xF
  | .reservedOp0 _ | .hdrA _ | .hdrD _ | .payload _ | .pktA _ _ _ | .pktD _ _ => 0x0

/-- A command's word has its row's OP; a wire row's first byte has its row's bits 7 and 6 (R101, R105, R106, R116). -/
def Statement (i : Instr) : Prop :=
  match encode i with
  | .command w => opField w = opCode i
  | .wire bs =>
    match i with
    | .hdrA _ | .pktA _ _ _ => ∃ b rest, bs = b :: rest ∧ b.extractLsb' 6 2 = 0b10#2
    | .hdrD _ | .pktD _ _ => ∃ b rest, bs = b :: rest ∧ b.extractLsb' 6 2 = 0b11#2
    | _ => ∃ b rest, bs = b :: rest ∧ b.getLsbD 7 = false

/-- OP is the top field of a command word. -/
theorem opField_opWord (op ch : BitVec 4) (d : BitVec 10) : opField (opWord op ch d) = op := by
  apply BitVec.eq_of_getLsbD_eq
  intro i hi
  simp only [opField, opWord, BitVec.getLsbD_extractLsb', BitVec.getLsbD_append]
  simp [hi, show ¬ (20 + i < 10) by omega, show ¬ (20 + i - 10 < 6) by omega,
    show ¬ (20 + i - 10 - 6 < 4) by omega, show 20 + i - 10 - 6 - 4 = i by omega]

/-- The top two bits of a header byte. -/
theorem top_of_header (k : BitVec 2) (c : BitVec 6) : (k ++ c : BitVec 8).extractLsb' 6 2 = k := by
  apply BitVec.eq_of_getLsbD_eq
  intro i hi
  rw [BitVec.getLsbD_extractLsb', BitVec.getLsbD_append]
  simp [hi]

theorem rxpush (b : BitVec 8) : Statement (.rxpush b) := opField_opWord _ _ _
theorem rxpop : Statement .rxpop := opField_opWord _ _ _
theorem rxavail : Statement .rxavail := opField_opWord _ _ _
theorem rxflush : Statement .rxflush := opField_opWord _ _ _
theorem txpush (b : BitVec 8) : Statement (.txpush b) := opField_opWord _ _ _
theorem txpop : Statement .txpop := opField_opWord _ _ _
theorem txavail : Statement .txavail := opField_opWord _ _ _
theorem txflush : Statement .txflush := opField_opWord _ _ _
theorem enca (ch : BitVec 4) (v : BitVec 10) : Statement (.enca ch v) := opField_opWord _ _ _
theorem encd (ch : BitVec 4) (v : BitVec 1) : Statement (.encd ch v) := opField_opWord _ _ _
theorem smpa (ch : BitVec 4) (raw : BitVec 10) : Statement (.smpa ch raw) := opField_opWord _ _ _
theorem smpd (ch : BitVec 4) (raw : BitVec 1) : Statement (.smpd ch raw) := opField_opWord _ _ _
theorem cycend : Statement .cycend := opField_opWord _ _ _
theorem decb (b : BitVec 8) : Statement (.decb b) := opField_opWord _ _ _
theorem decnext : Statement .decnext := opField_opWord _ _ _

theorem reservedOp0 (low : BitVec 20) : Statement (.reservedOp0 low) := by
  show opField (0#4 ++ low) = 0#4
  apply BitVec.eq_of_getLsbD_eq
  intro i hi
  rw [opField, BitVec.getLsbD_extractLsb', BitVec.getLsbD_append]
  simp

theorem hdrA (c : BitVec 6) : Statement (.hdrA c) := ⟨_, _, rfl, top_of_header _ c⟩
theorem hdrD (c : BitVec 6) : Statement (.hdrD c) := ⟨_, _, rfl, top_of_header _ c⟩
theorem payload (p : BitVec 7) : Statement (.payload p) :=
  ⟨_, _, rfl, by rw [payloadByte, BitVec.getLsbD_append]; simp⟩
theorem pktA (c : BitVec 6) (h l : BitVec 7) : Statement (.pktA c h l) := ⟨_, _, rfl, top_of_header _ c⟩
theorem pktD (c : BitVec 6) (v : BitVec 7) : Statement (.pktD c v) := ⟨_, _, rfl, top_of_header _ c⟩

end Sys2Proof.Laws.OpField
end

