-- ==== Sys2Proof/Laws/Decode.lean ====
section
/-! SUPPORT. The fields of a command word and of a wire byte, read back from the encoder's words: one lemma per field. -/

namespace Sys2Proof

/-- Every bit of a command word, by its field (R115). -/
theorem getLsbD_opWord (op ch : BitVec 4) (d : BitVec 10) (i : Nat) :
    (opWord op ch d).getLsbD i =
      if i < 10 then d.getLsbD i else if i < 16 then false
      else if i < 20 then ch.getLsbD (i - 16) else op.getLsbD (i - 20) := by
  simp only [opWord, BitVec.getLsbD_append, BitVec.getLsbD_zero]
  by_cases h1 : i < 10
  · simp [h1]
  · by_cases h2 : i < 16
    · simp [h1, h2, show i - 10 < 6 by omega]
    · by_cases h3 : i < 20
      · rw [if_neg h1, if_neg (show ¬ (i - 10 < 6) by omega), if_pos (show i - 10 - 6 < 4 by omega), if_neg h1,
          if_neg h2, if_pos h3, show i - 10 - 6 = i - 16 by omega]
      · simp [h1, h2, h3, show ¬ (i - 10 < 6) by omega, show ¬ (i - 10 - 6 < 4) by omega,
          show i - 10 - 6 - 4 = i - 20 by omega]

@[simp] theorem opField_opWord (op ch : BitVec 4) (d : BitVec 10) : opField (opWord op ch d) = op :=
  Laws.OpField.opField_opWord op ch d

@[simp] theorem chField_opWord (op ch : BitVec 4) (d : BitVec 10) : chField (opWord op ch d) = ch := by
  apply BitVec.eq_of_getLsbD_eq
  intro i hi
  simp only [chField, BitVec.getLsbD_extractLsb', getLsbD_opWord]
  simp [hi, show ¬ (16 + i < 10) by omega, show 16 + i < 20 by omega]

@[simp] theorem dataField_opWord (op ch : BitVec 4) (d : BitVec 10) : dataField (opWord op ch d) = d := by
  apply BitVec.eq_of_getLsbD_eq
  intro i hi
  simp only [dataField, BitVec.getLsbD_extractLsb', getLsbD_opWord]
  simp [hi]

@[simp] theorem byteField_opWord (op ch : BitVec 4) (b : BitVec 8) :
    byteField (opWord op ch (b.setWidth 10)) = b := by
  apply BitVec.eq_of_getLsbD_eq
  intro i hi
  simp only [byteField, BitVec.getLsbD_extractLsb', getLsbD_opWord]
  simp [hi, show i < 10 by omega]

@[simp] theorem bitField_opWord (op ch : BitVec 4) (b : BitVec 1) :
    bitField (opWord op ch (b.setWidth 10)) = b := by
  apply BitVec.eq_of_getLsbD_eq
  intro i hi
  simp only [bitField, BitVec.getLsbD_extractLsb', getLsbD_opWord]
  simp [hi, show i < 10 by omega]

/-- A row answers its instruction when the word matches and the instruction is well-formed. -/
theorem rowInstr_ok {pattern mask : CmdWord} {i : Instr} {w : CmdWord} (hw : w &&& mask = pattern)
    (hi : WellFormed i) : rowInstr pattern mask i w = .ok i := by
  have hi' : i.wellFormed = true := hi
  simp [rowInstr, hw, hi']

/-- What a row can answer. -/
theorem rowInstr_eq_ok {pattern mask : CmdWord} {i j : Instr} {w : CmdWord}
    (h : rowInstr pattern mask i w = .ok j) : w &&& mask = pattern ∧ WellFormed i ∧ j = i := by
  unfold rowInstr at h
  split at h
  · split at h
    · cases h
      exact ⟨‹_›, ‹_›, rfl⟩
    · cases h
  · cases h

/-- A masked word equals a pattern when every bit does. -/
theorem and_eq_of_bits {n : Nat} {x m p : BitVec n}
    (h : ∀ i, i < n → (x.getLsbD i && m.getLsbD i) = p.getLsbD i) : x &&& m = p := by
  apply BitVec.eq_of_getLsbD_eq
  intro i hi
  simpa using h i hi

/-- Header bytes read back (R101). -/
@[simp] theorem decodeByteClass_hdrA (c : BitVec 6) : decodeByteClass (hdrAByte c) = .hdrA c := by
  have h7 : (hdrAByte c).getLsbD 7 = true := by rw [hdrAByte, BitVec.getLsbD_append]; rfl
  have h6 : (hdrAByte c).getLsbD 6 = false := by rw [hdrAByte, BitVec.getLsbD_append]; rfl
  have hc : (hdrAByte c).extractLsb' 0 6 = c := by
    apply BitVec.eq_of_getLsbD_eq
    intro i hi
    rw [BitVec.getLsbD_extractLsb', hdrAByte, BitVec.getLsbD_append]
    simp [hi]
  simp only [decodeByteClass, h7, h6, hc]
  rfl

@[simp] theorem decodeByteClass_hdrD (c : BitVec 6) : decodeByteClass (hdrDByte c) = .hdrD c := by
  have h7 : (hdrDByte c).getLsbD 7 = true := by rw [hdrDByte, BitVec.getLsbD_append]; rfl
  have h6 : (hdrDByte c).getLsbD 6 = true := by rw [hdrDByte, BitVec.getLsbD_append]; rfl
  have hc : (hdrDByte c).extractLsb' 0 6 = c := by
    apply BitVec.eq_of_getLsbD_eq
    intro i hi
    rw [BitVec.getLsbD_extractLsb', hdrDByte, BitVec.getLsbD_append]
    simp [hi]
  simp only [decodeByteClass, h7, h6, hc]
  rfl

@[simp] theorem decodeByteClass_payload (p : BitVec 7) : decodeByteClass (payloadByte p) = .payload p := by
  have h7 : (payloadByte p).getLsbD 7 = false := by rw [payloadByte, BitVec.getLsbD_append]; rfl
  have hp : (payloadByte p).extractLsb' 0 7 = p := by
    apply BitVec.eq_of_getLsbD_eq
    intro i hi
    rw [BitVec.getLsbD_extractLsb', payloadByte, BitVec.getLsbD_append]
    simp [hi]
  simp only [decodeByteClass, h7, hp]
  rfl

end Sys2Proof
end

