-- ==== Sys2Proof/Laws/State.lean ====
section
/-! SUPPORT. One lemma per field per update of State, each true by computation, so that no later proof unfolds a record update; and the laws of the per-agent record. -/

namespace Sys2Proof.Machine

/-! ## Per-agent values -/

@[simp] theorem PerAgent.get_set_same {α : Type} (p : PerAgent α) (a : Agent) (x : α) :
    (p.set a x).get a = x := by cases a <;> rfl

theorem PerAgent.get_set_other {α : Type} (p : PerAgent α) {a b : Agent} (x : α) (h : b ≠ a) :
    (p.set a x).get b = p.get b := by cases a <;> cases b <;> first | rfl | exact absurd rfl h

@[simp] theorem PerAgent.get_all {α : Type} (x : α) (a : Agent) : (PerAgent.all x).get a = x := by
  cases a <;> rfl

theorem PerAgent.ext_get {α : Type} {p q : PerAgent α} (h : ∀ a, p.get a = q.get a) : p = q := by
  cases p; cases q
  simpa [PerAgent.get] using And.intro (h .fg) (And.intro (h .txi) (And.intro (h .rxi) (h .rd)))


/-! ## complete -/

@[simp] theorem complete_cfg (w : CmdWord) (s : State) : (complete w s).cfg = s.cfg := rfl
@[simp] theorem complete_rx (w : CmdWord) (s : State) : (complete w s).rx = s.rx := rfl
@[simp] theorem complete_tx (w : CmdWord) (s : State) : (complete w s).tx = s.tx := rfl
@[simp] theorem complete_rawLatest (w : CmdWord) (s : State) : (complete w s).rawLatest = s.rawLatest := rfl
@[simp] theorem complete_acc (w : CmdWord) (s : State) : (complete w s).acc = s.acc := rfl
@[simp] theorem complete_rep (w : CmdWord) (s : State) : (complete w s).rep = s.rep := rfl
@[simp] theorem complete_dtimer (w : CmdWord) (s : State) : (complete w s).dtimer = s.dtimer := rfl
@[simp] theorem complete_actTimer (w : CmdWord) (s : State) : (complete w s).actTimer = s.actTimer := rfl
@[simp] theorem complete_cycEmit (w : CmdWord) (s : State) : (complete w s).cycEmit = s.cycEmit := rfl
@[simp] theorem complete_encBuf (w : CmdWord) (s : State) : (complete w s).encBuf = s.encBuf := rfl
@[simp] theorem complete_encLen (w : CmdWord) (s : State) : (complete w s).encLen = s.encLen := rfl
@[simp] theorem complete_encPos (w : CmdWord) (s : State) : (complete w s).encPos = s.encPos := rfl
@[simp] theorem complete_decState (w : CmdWord) (s : State) : (complete w s).decState = s.decState := rfl
@[simp] theorem complete_decCh (w : CmdWord) (s : State) : (complete w s).decCh = s.decCh := rfl
@[simp] theorem complete_decHi (w : CmdWord) (s : State) : (complete w s).decHi = s.decHi := rfl
@[simp] theorem complete_rdDone (w : CmdWord) (s : State) : (complete w s).rdDone = s.rdDone := rfl
@[simp] theorem complete_pending (w : CmdWord) (s : State) : (complete w s).pending = s.pending.set s.issuer none := rfl
@[simp] theorem complete_faultLatch (w : CmdWord) (s : State) : (complete w s).faultLatch = s.faultLatch := rfl
@[simp] theorem complete_refusalLatch (w : CmdWord) (s : State) : (complete w s).refusalLatch = s.refusalLatch := rfl
@[simp] theorem complete_history (w : CmdWord) (s : State) : (complete w s).history = s.history := rfl
@[simp] theorem complete_ain (w : CmdWord) (s : State) : (complete w s).ain = s.ain := rfl
@[simp] theorem complete_din (w : CmdWord) (s : State) : (complete w s).din = s.din := rfl
@[simp] theorem complete_eos (w : CmdWord) (s : State) : (complete w s).eos = s.eos := rfl
@[simp] theorem complete_result (w : CmdWord) (s : State) : (complete w s).result = s.result.set s.issuer (some w) := rfl
@[simp] theorem complete_issuer (w : CmdWord) (s : State) : (complete w s).issuer = s.issuer := rfl
@[simp] theorem complete_streams (w : CmdWord) (s : State) : (complete w s).streams = s.streams := rfl
@[simp] theorem complete_schedule (w : CmdWord) (s : State) : (complete w s).schedule = s.schedule := rfl
@[simp] theorem complete_wire (w : CmdWord) (s : State) : (complete w s).wire = s.wire := rfl

/-! ## hold -/

@[simp] theorem hold_cfg (i : Instr) (why : HoldReason) (s : State) : (hold i why s).cfg = s.cfg := rfl
@[simp] theorem hold_rx (i : Instr) (why : HoldReason) (s : State) : (hold i why s).rx = s.rx := rfl
@[simp] theorem hold_tx (i : Instr) (why : HoldReason) (s : State) : (hold i why s).tx = s.tx := rfl
@[simp] theorem hold_rawLatest (i : Instr) (why : HoldReason) (s : State) : (hold i why s).rawLatest = s.rawLatest := rfl
@[simp] theorem hold_acc (i : Instr) (why : HoldReason) (s : State) : (hold i why s).acc = s.acc := rfl
@[simp] theorem hold_rep (i : Instr) (why : HoldReason) (s : State) : (hold i why s).rep = s.rep := rfl
@[simp] theorem hold_dtimer (i : Instr) (why : HoldReason) (s : State) : (hold i why s).dtimer = s.dtimer := rfl
@[simp] theorem hold_actTimer (i : Instr) (why : HoldReason) (s : State) : (hold i why s).actTimer = s.actTimer := rfl
@[simp] theorem hold_cycEmit (i : Instr) (why : HoldReason) (s : State) : (hold i why s).cycEmit = s.cycEmit := rfl
@[simp] theorem hold_encBuf (i : Instr) (why : HoldReason) (s : State) : (hold i why s).encBuf = s.encBuf := rfl
@[simp] theorem hold_encLen (i : Instr) (why : HoldReason) (s : State) : (hold i why s).encLen = s.encLen := rfl
@[simp] theorem hold_encPos (i : Instr) (why : HoldReason) (s : State) : (hold i why s).encPos = s.encPos := rfl
@[simp] theorem hold_decState (i : Instr) (why : HoldReason) (s : State) : (hold i why s).decState = s.decState := rfl
@[simp] theorem hold_decCh (i : Instr) (why : HoldReason) (s : State) : (hold i why s).decCh = s.decCh := rfl
@[simp] theorem hold_decHi (i : Instr) (why : HoldReason) (s : State) : (hold i why s).decHi = s.decHi := rfl
@[simp] theorem hold_rdDone (i : Instr) (why : HoldReason) (s : State) : (hold i why s).rdDone = s.rdDone := rfl
@[simp] theorem hold_pending (i : Instr) (why : HoldReason) (s : State) : (hold i why s).pending = s.pending.set s.issuer (some ⟨.item (.code (encode i)), why⟩) := rfl
@[simp] theorem hold_faultLatch (i : Instr) (why : HoldReason) (s : State) : (hold i why s).faultLatch = s.faultLatch := rfl
@[simp] theorem hold_refusalLatch (i : Instr) (why : HoldReason) (s : State) : (hold i why s).refusalLatch = s.refusalLatch := rfl
@[simp] theorem hold_history (i : Instr) (why : HoldReason) (s : State) : (hold i why s).history = s.history := rfl
@[simp] theorem hold_ain (i : Instr) (why : HoldReason) (s : State) : (hold i why s).ain = s.ain := rfl
@[simp] theorem hold_din (i : Instr) (why : HoldReason) (s : State) : (hold i why s).din = s.din := rfl
@[simp] theorem hold_eos (i : Instr) (why : HoldReason) (s : State) : (hold i why s).eos = s.eos := rfl
@[simp] theorem hold_result (i : Instr) (why : HoldReason) (s : State) : (hold i why s).result = s.result := rfl
@[simp] theorem hold_issuer (i : Instr) (why : HoldReason) (s : State) : (hold i why s).issuer = s.issuer := rfl
@[simp] theorem hold_streams (i : Instr) (why : HoldReason) (s : State) : (hold i why s).streams = s.streams := rfl
@[simp] theorem hold_schedule (i : Instr) (why : HoldReason) (s : State) : (hold i why s).schedule = s.schedule := rfl
@[simp] theorem hold_wire (i : Instr) (why : HoldReason) (s : State) : (hold i why s).wire = s.wire := rfl

/-! ## raiseViolation -/

@[simp] theorem raiseViolation_cfg (v : Violation) (s : State) : (raiseViolation v s).cfg = s.cfg := rfl
@[simp] theorem raiseViolation_rx (v : Violation) (s : State) : (raiseViolation v s).rx = s.rx := rfl
@[simp] theorem raiseViolation_tx (v : Violation) (s : State) : (raiseViolation v s).tx = s.tx := rfl
@[simp] theorem raiseViolation_rawLatest (v : Violation) (s : State) : (raiseViolation v s).rawLatest = s.rawLatest := rfl
@[simp] theorem raiseViolation_acc (v : Violation) (s : State) : (raiseViolation v s).acc = s.acc := rfl
@[simp] theorem raiseViolation_rep (v : Violation) (s : State) : (raiseViolation v s).rep = s.rep := rfl
@[simp] theorem raiseViolation_dtimer (v : Violation) (s : State) : (raiseViolation v s).dtimer = s.dtimer := rfl
@[simp] theorem raiseViolation_actTimer (v : Violation) (s : State) : (raiseViolation v s).actTimer = s.actTimer := rfl
@[simp] theorem raiseViolation_cycEmit (v : Violation) (s : State) : (raiseViolation v s).cycEmit = s.cycEmit := rfl
@[simp] theorem raiseViolation_encBuf (v : Violation) (s : State) : (raiseViolation v s).encBuf = s.encBuf := rfl
@[simp] theorem raiseViolation_encLen (v : Violation) (s : State) : (raiseViolation v s).encLen = s.encLen := rfl
@[simp] theorem raiseViolation_encPos (v : Violation) (s : State) : (raiseViolation v s).encPos = s.encPos := rfl
@[simp] theorem raiseViolation_decState (v : Violation) (s : State) : (raiseViolation v s).decState = s.decState := rfl
@[simp] theorem raiseViolation_decCh (v : Violation) (s : State) : (raiseViolation v s).decCh = s.decCh := rfl
@[simp] theorem raiseViolation_decHi (v : Violation) (s : State) : (raiseViolation v s).decHi = s.decHi := rfl
@[simp] theorem raiseViolation_rdDone (v : Violation) (s : State) : (raiseViolation v s).rdDone = s.rdDone := rfl
@[simp] theorem raiseViolation_pending (v : Violation) (s : State) : (raiseViolation v s).pending = s.pending.set s.issuer none := rfl
@[simp] theorem raiseViolation_faultLatch (v : Violation) (s : State) : (raiseViolation v s).faultLatch = s.faultLatch.or (some v) := rfl
@[simp] theorem raiseViolation_refusalLatch (v : Violation) (s : State) : (raiseViolation v s).refusalLatch = s.refusalLatch := rfl
@[simp] theorem raiseViolation_history (v : Violation) (s : State) : (raiseViolation v s).history = s.history := rfl
@[simp] theorem raiseViolation_ain (v : Violation) (s : State) : (raiseViolation v s).ain = s.ain := rfl
@[simp] theorem raiseViolation_din (v : Violation) (s : State) : (raiseViolation v s).din = s.din := rfl
@[simp] theorem raiseViolation_eos (v : Violation) (s : State) : (raiseViolation v s).eos = s.eos := rfl
@[simp] theorem raiseViolation_result (v : Violation) (s : State) : (raiseViolation v s).result = s.result := rfl
@[simp] theorem raiseViolation_issuer (v : Violation) (s : State) : (raiseViolation v s).issuer = s.issuer := rfl
@[simp] theorem raiseViolation_streams (v : Violation) (s : State) : (raiseViolation v s).streams = s.streams := rfl
@[simp] theorem raiseViolation_schedule (v : Violation) (s : State) : (raiseViolation v s).schedule = s.schedule := rfl
@[simp] theorem raiseViolation_wire (v : Violation) (s : State) : (raiseViolation v s).wire = s.wire := rfl

/-! ## refuse -/

@[simp] theorem refuse_cfg (why : RefuseReason) (s : State) : (refuse why s).cfg = s.cfg := rfl
@[simp] theorem refuse_rx (why : RefuseReason) (s : State) : (refuse why s).rx = s.rx := rfl
@[simp] theorem refuse_tx (why : RefuseReason) (s : State) : (refuse why s).tx = s.tx := rfl
@[simp] theorem refuse_rawLatest (why : RefuseReason) (s : State) : (refuse why s).rawLatest = s.rawLatest := rfl
@[simp] theorem refuse_acc (why : RefuseReason) (s : State) : (refuse why s).acc = s.acc := rfl
@[simp] theorem refuse_rep (why : RefuseReason) (s : State) : (refuse why s).rep = s.rep := rfl
@[simp] theorem refuse_dtimer (why : RefuseReason) (s : State) : (refuse why s).dtimer = s.dtimer := rfl
@[simp] theorem refuse_actTimer (why : RefuseReason) (s : State) : (refuse why s).actTimer = s.actTimer := rfl
@[simp] theorem refuse_cycEmit (why : RefuseReason) (s : State) : (refuse why s).cycEmit = s.cycEmit := rfl
@[simp] theorem refuse_encBuf (why : RefuseReason) (s : State) : (refuse why s).encBuf = s.encBuf := rfl
@[simp] theorem refuse_encLen (why : RefuseReason) (s : State) : (refuse why s).encLen = s.encLen := rfl
@[simp] theorem refuse_encPos (why : RefuseReason) (s : State) : (refuse why s).encPos = s.encPos := rfl
@[simp] theorem refuse_decState (why : RefuseReason) (s : State) : (refuse why s).decState = s.decState := rfl
@[simp] theorem refuse_decCh (why : RefuseReason) (s : State) : (refuse why s).decCh = s.decCh := rfl
@[simp] theorem refuse_decHi (why : RefuseReason) (s : State) : (refuse why s).decHi = s.decHi := rfl
@[simp] theorem refuse_rdDone (why : RefuseReason) (s : State) : (refuse why s).rdDone = s.rdDone := rfl
@[simp] theorem refuse_pending (why : RefuseReason) (s : State) : (refuse why s).pending = s.pending.set s.issuer none := rfl
@[simp] theorem refuse_faultLatch (why : RefuseReason) (s : State) : (refuse why s).faultLatch = s.faultLatch := rfl
@[simp] theorem refuse_refusalLatch (why : RefuseReason) (s : State) : (refuse why s).refusalLatch = s.refusalLatch.or (some why) := rfl
@[simp] theorem refuse_history (why : RefuseReason) (s : State) : (refuse why s).history = s.history := rfl
@[simp] theorem refuse_ain (why : RefuseReason) (s : State) : (refuse why s).ain = s.ain := rfl
@[simp] theorem refuse_din (why : RefuseReason) (s : State) : (refuse why s).din = s.din := rfl
@[simp] theorem refuse_eos (why : RefuseReason) (s : State) : (refuse why s).eos = s.eos := rfl
@[simp] theorem refuse_result (why : RefuseReason) (s : State) : (refuse why s).result = s.result := rfl
@[simp] theorem refuse_issuer (why : RefuseReason) (s : State) : (refuse why s).issuer = s.issuer := rfl
@[simp] theorem refuse_streams (why : RefuseReason) (s : State) : (refuse why s).streams = s.streams := rfl
@[simp] theorem refuse_schedule (why : RefuseReason) (s : State) : (refuse why s).schedule = s.schedule := rfl
@[simp] theorem refuse_wire (why : RefuseReason) (s : State) : (refuse why s).wire = s.wire := rfl

/-! ## record -/

@[simp] theorem record_cfg (o : Observation) (s : State) : (record o s).cfg = s.cfg := rfl
@[simp] theorem record_rx (o : Observation) (s : State) : (record o s).rx = s.rx := rfl
@[simp] theorem record_tx (o : Observation) (s : State) : (record o s).tx = s.tx := rfl
@[simp] theorem record_rawLatest (o : Observation) (s : State) : (record o s).rawLatest = s.rawLatest := rfl
@[simp] theorem record_acc (o : Observation) (s : State) : (record o s).acc = s.acc := rfl
@[simp] theorem record_rep (o : Observation) (s : State) : (record o s).rep = s.rep := rfl
@[simp] theorem record_dtimer (o : Observation) (s : State) : (record o s).dtimer = s.dtimer := rfl
@[simp] theorem record_actTimer (o : Observation) (s : State) : (record o s).actTimer = s.actTimer := rfl
@[simp] theorem record_cycEmit (o : Observation) (s : State) : (record o s).cycEmit = s.cycEmit := rfl
@[simp] theorem record_encBuf (o : Observation) (s : State) : (record o s).encBuf = s.encBuf := rfl
@[simp] theorem record_encLen (o : Observation) (s : State) : (record o s).encLen = s.encLen := rfl
@[simp] theorem record_encPos (o : Observation) (s : State) : (record o s).encPos = s.encPos := rfl
@[simp] theorem record_decState (o : Observation) (s : State) : (record o s).decState = s.decState := rfl
@[simp] theorem record_decCh (o : Observation) (s : State) : (record o s).decCh = s.decCh := rfl
@[simp] theorem record_decHi (o : Observation) (s : State) : (record o s).decHi = s.decHi := rfl
@[simp] theorem record_rdDone (o : Observation) (s : State) : (record o s).rdDone = s.rdDone := rfl
@[simp] theorem record_pending (o : Observation) (s : State) : (record o s).pending = s.pending := rfl
@[simp] theorem record_faultLatch (o : Observation) (s : State) : (record o s).faultLatch = s.faultLatch := rfl
@[simp] theorem record_refusalLatch (o : Observation) (s : State) : (record o s).refusalLatch = s.refusalLatch := rfl
@[simp] theorem record_history (o : Observation) (s : State) : (record o s).history = s.history ++ [o] := rfl
@[simp] theorem record_ain (o : Observation) (s : State) : (record o s).ain = s.ain := rfl
@[simp] theorem record_din (o : Observation) (s : State) : (record o s).din = s.din := rfl
@[simp] theorem record_eos (o : Observation) (s : State) : (record o s).eos = s.eos := rfl
@[simp] theorem record_result (o : Observation) (s : State) : (record o s).result = s.result := rfl
@[simp] theorem record_issuer (o : Observation) (s : State) : (record o s).issuer = s.issuer := rfl
@[simp] theorem record_streams (o : Observation) (s : State) : (record o s).streams = s.streams := rfl
@[simp] theorem record_schedule (o : Observation) (s : State) : (record o s).schedule = s.schedule := rfl
@[simp] theorem record_wire (o : Observation) (s : State) : (record o s).wire = s.wire := rfl

/-! ## decoderIdle -/

@[simp] theorem decoderIdle_cfg (s : State) : (decoderIdle s).cfg = s.cfg := rfl
@[simp] theorem decoderIdle_rx (s : State) : (decoderIdle s).rx = s.rx := rfl
@[simp] theorem decoderIdle_tx (s : State) : (decoderIdle s).tx = s.tx := rfl
@[simp] theorem decoderIdle_rawLatest (s : State) : (decoderIdle s).rawLatest = s.rawLatest := rfl
@[simp] theorem decoderIdle_acc (s : State) : (decoderIdle s).acc = s.acc := rfl
@[simp] theorem decoderIdle_rep (s : State) : (decoderIdle s).rep = s.rep := rfl
@[simp] theorem decoderIdle_dtimer (s : State) : (decoderIdle s).dtimer = s.dtimer := rfl
@[simp] theorem decoderIdle_actTimer (s : State) : (decoderIdle s).actTimer = s.actTimer := rfl
@[simp] theorem decoderIdle_cycEmit (s : State) : (decoderIdle s).cycEmit = s.cycEmit := rfl
@[simp] theorem decoderIdle_encBuf (s : State) : (decoderIdle s).encBuf = s.encBuf := rfl
@[simp] theorem decoderIdle_encLen (s : State) : (decoderIdle s).encLen = s.encLen := rfl
@[simp] theorem decoderIdle_encPos (s : State) : (decoderIdle s).encPos = s.encPos := rfl
@[simp] theorem decoderIdle_decState (s : State) : (decoderIdle s).decState = .idle := rfl
@[simp] theorem decoderIdle_decCh (s : State) : (decoderIdle s).decCh = 0 := rfl
@[simp] theorem decoderIdle_decHi (s : State) : (decoderIdle s).decHi = 0 := rfl
@[simp] theorem decoderIdle_rdDone (s : State) : (decoderIdle s).rdDone = s.rdDone := rfl
@[simp] theorem decoderIdle_pending (s : State) : (decoderIdle s).pending = s.pending := rfl
@[simp] theorem decoderIdle_faultLatch (s : State) : (decoderIdle s).faultLatch = s.faultLatch := rfl
@[simp] theorem decoderIdle_refusalLatch (s : State) : (decoderIdle s).refusalLatch = s.refusalLatch := rfl
@[simp] theorem decoderIdle_history (s : State) : (decoderIdle s).history = s.history := rfl
@[simp] theorem decoderIdle_ain (s : State) : (decoderIdle s).ain = s.ain := rfl
@[simp] theorem decoderIdle_din (s : State) : (decoderIdle s).din = s.din := rfl
@[simp] theorem decoderIdle_eos (s : State) : (decoderIdle s).eos = s.eos := rfl
@[simp] theorem decoderIdle_result (s : State) : (decoderIdle s).result = s.result := rfl
@[simp] theorem decoderIdle_issuer (s : State) : (decoderIdle s).issuer = s.issuer := rfl
@[simp] theorem decoderIdle_streams (s : State) : (decoderIdle s).streams = s.streams := rfl
@[simp] theorem decoderIdle_schedule (s : State) : (decoderIdle s).schedule = s.schedule := rfl
@[simp] theorem decoderIdle_wire (s : State) : (decoderIdle s).wire = s.wire := rfl

/-! ## decodeHeader -/

@[simp] theorem decodeHeader_cfg (b : Byte) (s : State) : (decodeHeader b s).cfg = s.cfg := rfl
@[simp] theorem decodeHeader_rx (b : Byte) (s : State) : (decodeHeader b s).rx = s.rx := rfl
@[simp] theorem decodeHeader_tx (b : Byte) (s : State) : (decodeHeader b s).tx = s.tx := rfl
@[simp] theorem decodeHeader_rawLatest (b : Byte) (s : State) : (decodeHeader b s).rawLatest = s.rawLatest := rfl
@[simp] theorem decodeHeader_acc (b : Byte) (s : State) : (decodeHeader b s).acc = s.acc := rfl
@[simp] theorem decodeHeader_rep (b : Byte) (s : State) : (decodeHeader b s).rep = s.rep := rfl
@[simp] theorem decodeHeader_dtimer (b : Byte) (s : State) : (decodeHeader b s).dtimer = s.dtimer := rfl
@[simp] theorem decodeHeader_actTimer (b : Byte) (s : State) : (decodeHeader b s).actTimer = s.actTimer := rfl
@[simp] theorem decodeHeader_cycEmit (b : Byte) (s : State) : (decodeHeader b s).cycEmit = s.cycEmit := rfl
@[simp] theorem decodeHeader_encBuf (b : Byte) (s : State) : (decodeHeader b s).encBuf = s.encBuf := rfl
@[simp] theorem decodeHeader_encLen (b : Byte) (s : State) : (decodeHeader b s).encLen = s.encLen := rfl
@[simp] theorem decodeHeader_encPos (b : Byte) (s : State) : (decodeHeader b s).encPos = s.encPos := rfl
@[simp] theorem decodeHeader_decState (b : Byte) (s : State) : (decodeHeader b s).decState = if b.getLsbD 6 then .awaitDigitalValue else .awaitAnalogHigh := rfl
@[simp] theorem decodeHeader_decCh (b : Byte) (s : State) : (decodeHeader b s).decCh = b.extractLsb' 0 6 := rfl
@[simp] theorem decodeHeader_decHi (b : Byte) (s : State) : (decodeHeader b s).decHi = 0 := rfl
@[simp] theorem decodeHeader_rdDone (b : Byte) (s : State) : (decodeHeader b s).rdDone = s.rdDone := rfl
@[simp] theorem decodeHeader_pending (b : Byte) (s : State) : (decodeHeader b s).pending = s.pending := rfl
@[simp] theorem decodeHeader_faultLatch (b : Byte) (s : State) : (decodeHeader b s).faultLatch = s.faultLatch := rfl
@[simp] theorem decodeHeader_refusalLatch (b : Byte) (s : State) : (decodeHeader b s).refusalLatch = s.refusalLatch := rfl
@[simp] theorem decodeHeader_history (b : Byte) (s : State) : (decodeHeader b s).history = s.history := rfl
@[simp] theorem decodeHeader_ain (b : Byte) (s : State) : (decodeHeader b s).ain = s.ain := rfl
@[simp] theorem decodeHeader_din (b : Byte) (s : State) : (decodeHeader b s).din = s.din := rfl
@[simp] theorem decodeHeader_eos (b : Byte) (s : State) : (decodeHeader b s).eos = s.eos := rfl
@[simp] theorem decodeHeader_result (b : Byte) (s : State) : (decodeHeader b s).result = s.result := rfl
@[simp] theorem decodeHeader_issuer (b : Byte) (s : State) : (decodeHeader b s).issuer = s.issuer := rfl
@[simp] theorem decodeHeader_streams (b : Byte) (s : State) : (decodeHeader b s).streams = s.streams := rfl
@[simp] theorem decodeHeader_schedule (b : Byte) (s : State) : (decodeHeader b s).schedule = s.schedule := rfl
@[simp] theorem decodeHeader_wire (b : Byte) (s : State) : (decodeHeader b s).wire = s.wire := rfl

/-! ## endOfStream -/

@[simp] theorem endOfStream_cfg (s : State) : (endOfStream s).cfg = s.cfg := rfl
@[simp] theorem endOfStream_rx (s : State) : (endOfStream s).rx = s.rx := rfl
@[simp] theorem endOfStream_tx (s : State) : (endOfStream s).tx = s.tx := rfl
@[simp] theorem endOfStream_rawLatest (s : State) : (endOfStream s).rawLatest = s.rawLatest := rfl
@[simp] theorem endOfStream_acc (s : State) : (endOfStream s).acc = s.acc := rfl
@[simp] theorem endOfStream_rep (s : State) : (endOfStream s).rep = s.rep := rfl
@[simp] theorem endOfStream_dtimer (s : State) : (endOfStream s).dtimer = s.dtimer := rfl
@[simp] theorem endOfStream_actTimer (s : State) : (endOfStream s).actTimer = s.actTimer := rfl
@[simp] theorem endOfStream_cycEmit (s : State) : (endOfStream s).cycEmit = s.cycEmit := rfl
@[simp] theorem endOfStream_encBuf (s : State) : (endOfStream s).encBuf = s.encBuf := rfl
@[simp] theorem endOfStream_encLen (s : State) : (endOfStream s).encLen = s.encLen := rfl
@[simp] theorem endOfStream_encPos (s : State) : (endOfStream s).encPos = s.encPos := rfl
@[simp] theorem endOfStream_decState (s : State) : (endOfStream s).decState = .idle := rfl
@[simp] theorem endOfStream_decCh (s : State) : (endOfStream s).decCh = 0 := rfl
@[simp] theorem endOfStream_decHi (s : State) : (endOfStream s).decHi = 0 := rfl
@[simp] theorem endOfStream_rdDone (s : State) : (endOfStream s).rdDone = true := rfl
@[simp] theorem endOfStream_pending (s : State) : (endOfStream s).pending = s.pending := rfl
@[simp] theorem endOfStream_faultLatch (s : State) : (endOfStream s).faultLatch = s.faultLatch := rfl
@[simp] theorem endOfStream_refusalLatch (s : State) : (endOfStream s).refusalLatch = s.refusalLatch := rfl
@[simp] theorem endOfStream_history (s : State) : (endOfStream s).history = s.history ++ [.endOfStream] := rfl
@[simp] theorem endOfStream_ain (s : State) : (endOfStream s).ain = s.ain := rfl
@[simp] theorem endOfStream_din (s : State) : (endOfStream s).din = s.din := rfl
@[simp] theorem endOfStream_eos (s : State) : (endOfStream s).eos = s.eos := rfl
@[simp] theorem endOfStream_result (s : State) : (endOfStream s).result = s.result := rfl
@[simp] theorem endOfStream_issuer (s : State) : (endOfStream s).issuer = s.issuer := rfl
@[simp] theorem endOfStream_streams (s : State) : (endOfStream s).streams = s.streams := rfl
@[simp] theorem endOfStream_schedule (s : State) : (endOfStream s).schedule = s.schedule := rfl
@[simp] theorem endOfStream_wire (s : State) : (endOfStream s).wire = s.wire := rfl

/-! ## encLoad -/

@[simp] theorem encLoad_cfg (e : Event) (s : State) : (encLoad e s).cfg = s.cfg := by cases e <;> rfl
@[simp] theorem encLoad_rx (e : Event) (s : State) : (encLoad e s).rx = s.rx := by cases e <;> rfl
@[simp] theorem encLoad_tx (e : Event) (s : State) : (encLoad e s).tx = s.tx := by cases e <;> rfl
@[simp] theorem encLoad_rawLatest (e : Event) (s : State) : (encLoad e s).rawLatest = s.rawLatest := by cases e <;> rfl
@[simp] theorem encLoad_acc (e : Event) (s : State) : (encLoad e s).acc = s.acc := by cases e <;> rfl
@[simp] theorem encLoad_rep (e : Event) (s : State) : (encLoad e s).rep = s.rep := by cases e <;> rfl
@[simp] theorem encLoad_dtimer (e : Event) (s : State) : (encLoad e s).dtimer = s.dtimer := by cases e <;> rfl
@[simp] theorem encLoad_actTimer (e : Event) (s : State) : (encLoad e s).actTimer = s.actTimer := by cases e <;> rfl
@[simp] theorem encLoad_cycEmit (e : Event) (s : State) : (encLoad e s).cycEmit = s.cycEmit := by cases e <;> rfl
@[simp] theorem encLoad_encLen (e : Event) (s : State) : (encLoad e s).encLen = (wireBytes e).length := by cases e <;> rfl
@[simp] theorem encLoad_encPos (e : Event) (s : State) : (encLoad e s).encPos = 0 := by cases e <;> rfl
@[simp] theorem encLoad_decState (e : Event) (s : State) : (encLoad e s).decState = s.decState := by cases e <;> rfl
@[simp] theorem encLoad_decCh (e : Event) (s : State) : (encLoad e s).decCh = s.decCh := by cases e <;> rfl
@[simp] theorem encLoad_decHi (e : Event) (s : State) : (encLoad e s).decHi = s.decHi := by cases e <;> rfl
@[simp] theorem encLoad_rdDone (e : Event) (s : State) : (encLoad e s).rdDone = s.rdDone := by cases e <;> rfl
@[simp] theorem encLoad_pending (e : Event) (s : State) : (encLoad e s).pending = s.pending := by cases e <;> rfl
@[simp] theorem encLoad_faultLatch (e : Event) (s : State) : (encLoad e s).faultLatch = s.faultLatch := by cases e <;> rfl
@[simp] theorem encLoad_refusalLatch (e : Event) (s : State) : (encLoad e s).refusalLatch = s.refusalLatch := by cases e <;> rfl
@[simp] theorem encLoad_history (e : Event) (s : State) : (encLoad e s).history = s.history := by cases e <;> rfl
@[simp] theorem encLoad_ain (e : Event) (s : State) : (encLoad e s).ain = s.ain := by cases e <;> rfl
@[simp] theorem encLoad_din (e : Event) (s : State) : (encLoad e s).din = s.din := by cases e <;> rfl
@[simp] theorem encLoad_eos (e : Event) (s : State) : (encLoad e s).eos = s.eos := by cases e <;> rfl
@[simp] theorem encLoad_result (e : Event) (s : State) : (encLoad e s).result = s.result := by cases e <;> rfl
@[simp] theorem encLoad_issuer (e : Event) (s : State) : (encLoad e s).issuer = s.issuer := by cases e <;> rfl
@[simp] theorem encLoad_streams (e : Event) (s : State) : (encLoad e s).streams = s.streams := by cases e <;> rfl
@[simp] theorem encLoad_schedule (e : Event) (s : State) : (encLoad e s).schedule = s.schedule := by cases e <;> rfl
@[simp] theorem encLoad_wire (e : Event) (s : State) : (encLoad e s).wire = s.wire := by cases e <;> rfl

/-! ## emitSample -/

@[simp] theorem emitSample_cfg (e : Event) (s : State) : (emitSample e s).cfg = s.cfg := by cases e <;> rfl
@[simp] theorem emitSample_rx (e : Event) (s : State) : (emitSample e s).rx = s.rx := by cases e <;> rfl
@[simp] theorem emitSample_tx (e : Event) (s : State) : (emitSample e s).tx = s.tx := by cases e <;> rfl
@[simp] theorem emitSample_rawLatest (e : Event) (s : State) : (emitSample e s).rawLatest = s.rawLatest := by cases e <;> rfl
@[simp] theorem emitSample_acc (e : Event) (s : State) : (emitSample e s).acc = s.acc := by cases e <;> rfl
@[simp] theorem emitSample_rep (e : Event) (s : State) : (emitSample e s).rep = s.rep := by cases e <;> rfl
@[simp] theorem emitSample_dtimer (e : Event) (s : State) : (emitSample e s).dtimer = s.dtimer := by cases e <;> rfl
@[simp] theorem emitSample_actTimer (e : Event) (s : State) : (emitSample e s).actTimer = s.actTimer := by cases e <;> rfl
@[simp] theorem emitSample_cycEmit (e : Event) (s : State) : (emitSample e s).cycEmit = true := by cases e <;> rfl
@[simp] theorem emitSample_encBuf (e : Event) (s : State) : (emitSample e s).encBuf = (encLoad e s).encBuf := by cases e <;> rfl
@[simp] theorem emitSample_encLen (e : Event) (s : State) : (emitSample e s).encLen = (wireBytes e).length := by cases e <;> rfl
@[simp] theorem emitSample_encPos (e : Event) (s : State) : (emitSample e s).encPos = 0 := by cases e <;> rfl
@[simp] theorem emitSample_decState (e : Event) (s : State) : (emitSample e s).decState = s.decState := by cases e <;> rfl
@[simp] theorem emitSample_decCh (e : Event) (s : State) : (emitSample e s).decCh = s.decCh := by cases e <;> rfl
@[simp] theorem emitSample_decHi (e : Event) (s : State) : (emitSample e s).decHi = s.decHi := by cases e <;> rfl
@[simp] theorem emitSample_rdDone (e : Event) (s : State) : (emitSample e s).rdDone = s.rdDone := by cases e <;> rfl
@[simp] theorem emitSample_pending (e : Event) (s : State) : (emitSample e s).pending = s.pending := by cases e <;> rfl
@[simp] theorem emitSample_faultLatch (e : Event) (s : State) : (emitSample e s).faultLatch = s.faultLatch := by cases e <;> rfl
@[simp] theorem emitSample_refusalLatch (e : Event) (s : State) : (emitSample e s).refusalLatch = s.refusalLatch := by cases e <;> rfl
@[simp] theorem emitSample_history (e : Event) (s : State) : (emitSample e s).history = s.history ++ [.emit e] := by cases e <;> rfl
@[simp] theorem emitSample_ain (e : Event) (s : State) : (emitSample e s).ain = s.ain := by cases e <;> rfl
@[simp] theorem emitSample_din (e : Event) (s : State) : (emitSample e s).din = s.din := by cases e <;> rfl
@[simp] theorem emitSample_eos (e : Event) (s : State) : (emitSample e s).eos = s.eos := by cases e <;> rfl
@[simp] theorem emitSample_result (e : Event) (s : State) : (emitSample e s).result = s.result := by cases e <;> rfl
@[simp] theorem emitSample_issuer (e : Event) (s : State) : (emitSample e s).issuer = s.issuer := by cases e <;> rfl
@[simp] theorem emitSample_streams (e : Event) (s : State) : (emitSample e s).streams = s.streams := by cases e <;> rfl
@[simp] theorem emitSample_schedule (e : Event) (s : State) : (emitSample e s).schedule = s.schedule := by cases e <;> rfl
@[simp] theorem emitSample_wire (e : Event) (s : State) : (emitSample e s).wire = s.wire := by cases e <;> rfl

/-! ## stageAdvance -/

@[simp] theorem stageAdvance_cfg (s : State) : (stageAdvance s).cfg = s.cfg := by unfold stageAdvance; split <;> rfl
@[simp] theorem stageAdvance_rx (s : State) : (stageAdvance s).rx = s.rx := by unfold stageAdvance; split <;> rfl
@[simp] theorem stageAdvance_tx (s : State) : (stageAdvance s).tx = s.tx := by unfold stageAdvance; split <;> rfl
@[simp] theorem stageAdvance_rawLatest (s : State) : (stageAdvance s).rawLatest = s.rawLatest := by unfold stageAdvance; split <;> rfl
@[simp] theorem stageAdvance_acc (s : State) : (stageAdvance s).acc = s.acc := by unfold stageAdvance; split <;> rfl
@[simp] theorem stageAdvance_rep (s : State) : (stageAdvance s).rep = s.rep := by unfold stageAdvance; split <;> rfl
@[simp] theorem stageAdvance_dtimer (s : State) : (stageAdvance s).dtimer = s.dtimer := by unfold stageAdvance; split <;> rfl
@[simp] theorem stageAdvance_actTimer (s : State) : (stageAdvance s).actTimer = s.actTimer := by unfold stageAdvance; split <;> rfl
@[simp] theorem stageAdvance_cycEmit (s : State) : (stageAdvance s).cycEmit = s.cycEmit := by unfold stageAdvance; split <;> rfl
@[simp] theorem stageAdvance_encBuf (s : State) : (stageAdvance s).encBuf = s.encBuf := by unfold stageAdvance; split <;> rfl
@[simp] theorem stageAdvance_encLen (s : State) : (stageAdvance s).encLen = if s.encPos + 1 = s.encLen then 0 else s.encLen := by unfold stageAdvance; split <;> rfl
@[simp] theorem stageAdvance_encPos (s : State) : (stageAdvance s).encPos = if s.encPos + 1 = s.encLen then 0 else s.encPos + 1 := by unfold stageAdvance; split <;> rfl
@[simp] theorem stageAdvance_decState (s : State) : (stageAdvance s).decState = s.decState := by unfold stageAdvance; split <;> rfl
@[simp] theorem stageAdvance_decCh (s : State) : (stageAdvance s).decCh = s.decCh := by unfold stageAdvance; split <;> rfl
@[simp] theorem stageAdvance_decHi (s : State) : (stageAdvance s).decHi = s.decHi := by unfold stageAdvance; split <;> rfl
@[simp] theorem stageAdvance_rdDone (s : State) : (stageAdvance s).rdDone = s.rdDone := by unfold stageAdvance; split <;> rfl
@[simp] theorem stageAdvance_pending (s : State) : (stageAdvance s).pending = s.pending := by unfold stageAdvance; split <;> rfl
@[simp] theorem stageAdvance_faultLatch (s : State) : (stageAdvance s).faultLatch = s.faultLatch := by unfold stageAdvance; split <;> rfl
@[simp] theorem stageAdvance_refusalLatch (s : State) : (stageAdvance s).refusalLatch = s.refusalLatch := by unfold stageAdvance; split <;> rfl
@[simp] theorem stageAdvance_history (s : State) : (stageAdvance s).history = s.history := by unfold stageAdvance; split <;> rfl
@[simp] theorem stageAdvance_ain (s : State) : (stageAdvance s).ain = s.ain := by unfold stageAdvance; split <;> rfl
@[simp] theorem stageAdvance_din (s : State) : (stageAdvance s).din = s.din := by unfold stageAdvance; split <;> rfl
@[simp] theorem stageAdvance_eos (s : State) : (stageAdvance s).eos = s.eos := by unfold stageAdvance; split <;> rfl
@[simp] theorem stageAdvance_result (s : State) : (stageAdvance s).result = s.result := by unfold stageAdvance; split <;> rfl
@[simp] theorem stageAdvance_issuer (s : State) : (stageAdvance s).issuer = s.issuer := by unfold stageAdvance; split <;> rfl
@[simp] theorem stageAdvance_streams (s : State) : (stageAdvance s).streams = s.streams := by unfold stageAdvance; split <;> rfl
@[simp] theorem stageAdvance_schedule (s : State) : (stageAdvance s).schedule = s.schedule := by unfold stageAdvance; split <;> rfl
@[simp] theorem stageAdvance_wire (s : State) : (stageAdvance s).wire = s.wire := by unfold stageAdvance; split <;> rfl

/-! ## holdStage -/

@[simp] theorem holdStage_cfg (s : State) : (holdStage s).cfg = s.cfg := rfl
@[simp] theorem holdStage_rx (s : State) : (holdStage s).rx = s.rx := rfl
@[simp] theorem holdStage_tx (s : State) : (holdStage s).tx = s.tx := rfl
@[simp] theorem holdStage_rawLatest (s : State) : (holdStage s).rawLatest = s.rawLatest := rfl
@[simp] theorem holdStage_acc (s : State) : (holdStage s).acc = s.acc := rfl
@[simp] theorem holdStage_rep (s : State) : (holdStage s).rep = s.rep := rfl
@[simp] theorem holdStage_dtimer (s : State) : (holdStage s).dtimer = s.dtimer := rfl
@[simp] theorem holdStage_actTimer (s : State) : (holdStage s).actTimer = s.actTimer := rfl
@[simp] theorem holdStage_cycEmit (s : State) : (holdStage s).cycEmit = s.cycEmit := rfl
@[simp] theorem holdStage_encBuf (s : State) : (holdStage s).encBuf = s.encBuf := rfl
@[simp] theorem holdStage_encLen (s : State) : (holdStage s).encLen = s.encLen := rfl
@[simp] theorem holdStage_encPos (s : State) : (holdStage s).encPos = s.encPos := rfl
@[simp] theorem holdStage_decState (s : State) : (holdStage s).decState = s.decState := rfl
@[simp] theorem holdStage_decCh (s : State) : (holdStage s).decCh = s.decCh := rfl
@[simp] theorem holdStage_decHi (s : State) : (holdStage s).decHi = s.decHi := rfl
@[simp] theorem holdStage_rdDone (s : State) : (holdStage s).rdDone = s.rdDone := rfl
@[simp] theorem holdStage_faultLatch (s : State) : (holdStage s).faultLatch = s.faultLatch := rfl
@[simp] theorem holdStage_refusalLatch (s : State) : (holdStage s).refusalLatch = s.refusalLatch := rfl
@[simp] theorem holdStage_history (s : State) : (holdStage s).history = s.history := rfl
@[simp] theorem holdStage_ain (s : State) : (holdStage s).ain = s.ain := rfl
@[simp] theorem holdStage_din (s : State) : (holdStage s).din = s.din := rfl
@[simp] theorem holdStage_eos (s : State) : (holdStage s).eos = s.eos := rfl
@[simp] theorem holdStage_result (s : State) : (holdStage s).result = s.result := rfl
@[simp] theorem holdStage_issuer (s : State) : (holdStage s).issuer = s.issuer := rfl
@[simp] theorem holdStage_streams (s : State) : (holdStage s).streams = s.streams := rfl
@[simp] theorem holdStage_schedule (s : State) : (holdStage s).schedule = s.schedule := rfl
@[simp] theorem holdStage_wire (s : State) : (holdStage s).wire = s.wire := rfl

/-! ## clearStageHold -/

@[simp] theorem clearStageHold_cfg (s : State) : (clearStageHold s).cfg = s.cfg := rfl
@[simp] theorem clearStageHold_rx (s : State) : (clearStageHold s).rx = s.rx := rfl
@[simp] theorem clearStageHold_tx (s : State) : (clearStageHold s).tx = s.tx := rfl
@[simp] theorem clearStageHold_rawLatest (s : State) : (clearStageHold s).rawLatest = s.rawLatest := rfl
@[simp] theorem clearStageHold_acc (s : State) : (clearStageHold s).acc = s.acc := rfl
@[simp] theorem clearStageHold_rep (s : State) : (clearStageHold s).rep = s.rep := rfl
@[simp] theorem clearStageHold_dtimer (s : State) : (clearStageHold s).dtimer = s.dtimer := rfl
@[simp] theorem clearStageHold_actTimer (s : State) : (clearStageHold s).actTimer = s.actTimer := rfl
@[simp] theorem clearStageHold_cycEmit (s : State) : (clearStageHold s).cycEmit = s.cycEmit := rfl
@[simp] theorem clearStageHold_encBuf (s : State) : (clearStageHold s).encBuf = s.encBuf := rfl
@[simp] theorem clearStageHold_encLen (s : State) : (clearStageHold s).encLen = s.encLen := rfl
@[simp] theorem clearStageHold_encPos (s : State) : (clearStageHold s).encPos = s.encPos := rfl
@[simp] theorem clearStageHold_decState (s : State) : (clearStageHold s).decState = s.decState := rfl
@[simp] theorem clearStageHold_decCh (s : State) : (clearStageHold s).decCh = s.decCh := rfl
@[simp] theorem clearStageHold_decHi (s : State) : (clearStageHold s).decHi = s.decHi := rfl
@[simp] theorem clearStageHold_rdDone (s : State) : (clearStageHold s).rdDone = s.rdDone := rfl
@[simp] theorem clearStageHold_faultLatch (s : State) : (clearStageHold s).faultLatch = s.faultLatch := rfl
@[simp] theorem clearStageHold_refusalLatch (s : State) : (clearStageHold s).refusalLatch = s.refusalLatch := rfl
@[simp] theorem clearStageHold_history (s : State) : (clearStageHold s).history = s.history := rfl
@[simp] theorem clearStageHold_ain (s : State) : (clearStageHold s).ain = s.ain := rfl
@[simp] theorem clearStageHold_din (s : State) : (clearStageHold s).din = s.din := rfl
@[simp] theorem clearStageHold_eos (s : State) : (clearStageHold s).eos = s.eos := rfl
@[simp] theorem clearStageHold_result (s : State) : (clearStageHold s).result = s.result := rfl
@[simp] theorem clearStageHold_issuer (s : State) : (clearStageHold s).issuer = s.issuer := rfl
@[simp] theorem clearStageHold_streams (s : State) : (clearStageHold s).streams = s.streams := rfl
@[simp] theorem clearStageHold_schedule (s : State) : (clearStageHold s).schedule = s.schedule := rfl
@[simp] theorem clearStageHold_wire (s : State) : (clearStageHold s).wire = s.wire := rfl

/-! ## addToStream -/

@[simp] theorem addToStream_cfg (a : Agent) (it : Item) (s : State) : (addToStream a it s).cfg = s.cfg := rfl
@[simp] theorem addToStream_rx (a : Agent) (it : Item) (s : State) : (addToStream a it s).rx = s.rx := rfl
@[simp] theorem addToStream_tx (a : Agent) (it : Item) (s : State) : (addToStream a it s).tx = s.tx := rfl
@[simp] theorem addToStream_rawLatest (a : Agent) (it : Item) (s : State) : (addToStream a it s).rawLatest = s.rawLatest := rfl
@[simp] theorem addToStream_acc (a : Agent) (it : Item) (s : State) : (addToStream a it s).acc = s.acc := rfl
@[simp] theorem addToStream_rep (a : Agent) (it : Item) (s : State) : (addToStream a it s).rep = s.rep := rfl
@[simp] theorem addToStream_dtimer (a : Agent) (it : Item) (s : State) : (addToStream a it s).dtimer = s.dtimer := rfl
@[simp] theorem addToStream_actTimer (a : Agent) (it : Item) (s : State) : (addToStream a it s).actTimer = s.actTimer := rfl
@[simp] theorem addToStream_cycEmit (a : Agent) (it : Item) (s : State) : (addToStream a it s).cycEmit = s.cycEmit := rfl
@[simp] theorem addToStream_encBuf (a : Agent) (it : Item) (s : State) : (addToStream a it s).encBuf = s.encBuf := rfl
@[simp] theorem addToStream_encLen (a : Agent) (it : Item) (s : State) : (addToStream a it s).encLen = s.encLen := rfl
@[simp] theorem addToStream_encPos (a : Agent) (it : Item) (s : State) : (addToStream a it s).encPos = s.encPos := rfl
@[simp] theorem addToStream_decState (a : Agent) (it : Item) (s : State) : (addToStream a it s).decState = s.decState := rfl
@[simp] theorem addToStream_decCh (a : Agent) (it : Item) (s : State) : (addToStream a it s).decCh = s.decCh := rfl
@[simp] theorem addToStream_decHi (a : Agent) (it : Item) (s : State) : (addToStream a it s).decHi = s.decHi := rfl
@[simp] theorem addToStream_rdDone (a : Agent) (it : Item) (s : State) : (addToStream a it s).rdDone = s.rdDone := rfl
@[simp] theorem addToStream_pending (a : Agent) (it : Item) (s : State) : (addToStream a it s).pending = s.pending := rfl
@[simp] theorem addToStream_faultLatch (a : Agent) (it : Item) (s : State) : (addToStream a it s).faultLatch = s.faultLatch := rfl
@[simp] theorem addToStream_refusalLatch (a : Agent) (it : Item) (s : State) : (addToStream a it s).refusalLatch = s.refusalLatch := rfl
@[simp] theorem addToStream_history (a : Agent) (it : Item) (s : State) : (addToStream a it s).history = s.history := rfl
@[simp] theorem addToStream_ain (a : Agent) (it : Item) (s : State) : (addToStream a it s).ain = s.ain := rfl
@[simp] theorem addToStream_din (a : Agent) (it : Item) (s : State) : (addToStream a it s).din = s.din := rfl
@[simp] theorem addToStream_eos (a : Agent) (it : Item) (s : State) : (addToStream a it s).eos = s.eos := rfl
@[simp] theorem addToStream_result (a : Agent) (it : Item) (s : State) : (addToStream a it s).result = s.result := rfl
@[simp] theorem addToStream_issuer (a : Agent) (it : Item) (s : State) : (addToStream a it s).issuer = s.issuer := rfl
@[simp] theorem addToStream_streams (a : Agent) (it : Item) (s : State) : (addToStream a it s).streams = s.streams.set a (s.streams.get a ++ [it]) := rfl
@[simp] theorem addToStream_schedule (a : Agent) (it : Item) (s : State) : (addToStream a it s).schedule = s.schedule := rfl
@[simp] theorem addToStream_wire (a : Agent) (it : Item) (s : State) : (addToStream a it s).wire = s.wire := rfl

/-! ## keepIssued -/

/-- Keeping the issued item touches nothing but the pending slots. -/
theorem keepIssued_eq (a : Agent) (it : Item) (s : State) :
    ∃ p, keepIssued a it s = { s with pending := p } := by
  unfold keepIssued
  split
  · exact ⟨_, rfl⟩
  · exact ⟨s.pending, rfl⟩

end Sys2Proof.Machine
end

