-- ==== Sys2Proof/Laws/Ops.lean ====
section
/-! SUPPORT. For each shared operation, what it can do, said once: storage and ring laws, the order of checks, the frames of the encoder stage, the sampler steps and the decoder. -/

namespace Sys2Proof.Machine

/-! ## Storage -/

@[simp] theorem Memory.read_nil (k : Nat) : Memory.read [] k = none := rfl

/-- A read after a write to the same slot gives the byte written. -/
@[simp] theorem Memory.read_write_same (m : List Host.Cell) (k : Nat) (v : Byte) :
    Memory.read (Memory.write m k v) k = some v := by
  induction m with
  | nil => simp [Memory.write, Memory.read]
  | cons c m ih =>
    obtain ⟨a, b⟩ := c
    simp only [Memory.write]
    split
    · simp [Memory.read]
    · split
      · simp [Memory.read]
      · rename_i h
        simp [Memory.read, Ne.symm h, ih]

/-- A write leaves every other slot alone. -/
theorem Memory.read_write_other (m : List Host.Cell) {k j : Nat} (v : Byte) (h : j ≠ k) :
    Memory.read (Memory.write m k v) j = Memory.read m j := by
  induction m with
  | nil => simp [Memory.write, Memory.read, Ne.symm h]
  | cons c m ih =>
    obtain ⟨a, b⟩ := c
    simp only [Memory.write]
    split
    · simp [Memory.read, Ne.symm h]
    · split
      · rename_i h2
        subst h2
        simp [Memory.read, Ne.symm h]
      · simp only [Memory.read, ih]

/-- A write lists no slot but the written one and those listed before. -/
theorem Memory.mem_write {m : List Host.Cell} {k : Nat} {v : Byte} {c : Host.Cell}
    (h : c ∈ Memory.write m k v) : c.1 = k ∨ c ∈ m := by
  induction m with
  | nil => simp_all [Memory.write]
  | cons d m ih =>
    obtain ⟨a, b⟩ := d
    simp only [Memory.write] at h
    split at h
    · simp only [List.mem_cons] at h ⊢
      rcases h with rfl | h <;> simp_all
    · split at h
      · simp only [List.mem_cons] at h ⊢
        rcases h with rfl | h <;> simp_all
      · simp only [List.mem_cons] at h ⊢
        rcases h with rfl | h
        · simp
        · rcases ih h with h | h <;> simp_all

/-- A write keeps the canonical form. -/
theorem Memory.write_wf {m : List Host.Cell} (h : Memory.wf m) (k : Nat) (v : Byte) :
    Memory.wf (Memory.write m k v) := by
  induction m with
  | nil => simp [Memory.wf, Memory.write]
  | cons c m ih =>
    obtain ⟨a, b⟩ := c
    have ⟨hlt, hm⟩ := List.pairwise_cons.mp h
    simp only [Memory.write]
    split
    · rename_i hk
      refine List.pairwise_cons.mpr ⟨?_, h⟩
      intro d hd
      rcases List.mem_cons.mp hd with rfl | hd
      · exact hk
      · exact lt_trans hk (hlt d hd)
    · split
      · rename_i h2
        subst h2
        exact List.pairwise_cons.mpr ⟨hlt, hm⟩
      · rename_i h1 h2
        refine List.pairwise_cons.mpr ⟨?_, ih hm⟩
        intro d hd
        rcases Memory.mem_write hd with hd | hd
        · simp only
          omega
        · exact hlt d hd

/-! ## Rings -/

@[simp] theorem Ring.put_head (C : Nat) (b : Byte) (r : Ring) : (r.put C b).head = (r.head + 1) % C := rfl
@[simp] theorem Ring.put_tail (C : Nat) (b : Byte) (r : Ring) : (r.put C b).tail = r.tail := rfl
@[simp] theorem Ring.put_buf (C : Nat) (b : Byte) (r : Ring) :
    (r.put C b).buf = Memory.write r.buf r.head b := rfl
@[simp] theorem Ring.flush_head (r : Ring) : r.flush.head = r.head := rfl
@[simp] theorem Ring.flush_tail (r : Ring) : r.flush.tail = r.head := rfl
@[simp] theorem Ring.flush_buf (r : Ring) : r.flush.buf = r.buf := rfl

/-- What a pop can find. -/
theorem Ring.pop_cases (C : Nat) (r : Ring) :
    (r.head = r.tail ∧ r.pop C = .empty) ∨
    (r.head ≠ r.tail ∧ ∃ b, Memory.read r.buf r.tail = some b ∧
      r.pop C = .byte b { r with tail := (r.tail + 1) % C }) ∨
    (r.head ≠ r.tail ∧ Memory.read r.buf r.tail = none ∧ r.pop C = .unwritten r.tail) := by
  unfold Ring.pop Ring.isEmpty
  by_cases h : r.head = r.tail
  · simp [h]
  · cases hm : Memory.read r.buf r.tail <;> simp [h]

/-- Occupancy of indices in range, without the modulus. -/
theorem Ring.occ_eq {C : Nat} {r : Ring} (hh : r.head < C) (ht : r.tail < C) :
    r.occ C = if r.tail ≤ r.head then r.head - r.tail else r.head + C - r.tail := by
  unfold Ring.occ
  split
  · rw [show r.head + C - r.tail = (r.head - r.tail) + C by omega, Nat.add_mod_right]
    exact Nat.mod_eq_of_lt (by omega)
  · exact Nat.mod_eq_of_lt (by omega)

/-- The next index, without the modulus. -/
theorem Ring.succ_mod {C i : Nat} (h : i < C) : (i + 1) % C = if i + 1 = C then 0 else i + 1 := by
  split
  · rename_i e
    rw [e, Nat.mod_self]
  · exact Nat.mod_eq_of_lt (by omega)

/-- Full is occupancy C − 1 (R36). -/
theorem Ring.isFull_iff_occ {C : Nat} {r : Ring} (hh : r.head < C) (ht : r.tail < C) :
    r.isFull C = true ↔ r.occ C = C - 1 := by
  rw [Ring.occ_eq hh ht]
  simp only [Ring.isFull, decide_eq_true_eq, Ring.succ_mod hh]
  split <;> split <;> omega

/-- An accepted push adds one to the occupancy. -/
theorem Ring.occ_put {C : Nat} {r : Ring} (b : Byte) (hh : r.head < C) (ht : r.tail < C)
    (hf : r.isFull C = false) : (r.put C b).occ C = r.occ C + 1 := by
  have hC : (r.head + 1) % C < C := Nat.mod_lt _ (by omega)
  rw [Ring.occ_eq hh ht, Ring.occ_eq (by simpa using hC) (by simpa using ht)]
  have hf' : (r.head + 1) % C ≠ r.tail := by
    simpa [Ring.isFull] using hf
  simp only [Ring.put_head, Ring.put_tail, Ring.succ_mod hh] at *
  split at hf' <;> split <;> split <;> split <;> omega

/-- A pop takes one from the occupancy. -/
theorem Ring.occ_tail {C : Nat} {r : Ring} (hh : r.head < C) (ht : r.tail < C) (hne : r.head ≠ r.tail) :
    ({ r with tail := (r.tail + 1) % C } : Ring).occ C + 1 = r.occ C := by
  have hC : (r.tail + 1) % C < C := Nat.mod_lt _ (by omega)
  rw [Ring.occ_eq hh ht, Ring.occ_eq (r := { r with tail := (r.tail + 1) % C }) hh hC]
  simp only [Ring.succ_mod ht]
  split <;> split <;> split <;> omega

/-- The reset ring is in order. -/
theorem RingOk.reset {C : Nat} (h : 2 ≤ C) : RingOk C Ring.reset where
  head_lt := by simp only [Ring.reset]; omega
  tail_lt := by simp only [Ring.reset]; omega
  wf := List.Pairwise.nil
  slots := by simp [Ring.reset]
  written := by simp [Ring.occ, Ring.reset]

/-- The reset state's storage has the canonical form. -/
theorem State.reset_storage_wf : Memory.wf State.reset.rx.buf ∧ Memory.wf State.reset.tx.buf :=
  ⟨List.Pairwise.nil, List.Pairwise.nil⟩

/-- An accepted push keeps a ring in order. -/
theorem RingOk.put {C : Nat} {r : Ring} (h : RingOk C r) (b : Byte) (hf : r.isFull C = false) :
    RingOk C (r.put C b) where
  head_lt := Nat.mod_lt _ (Nat.zero_lt_of_lt h.head_lt)
  tail_lt := h.tail_lt
  wf := Memory.write_wf h.wf _ _
  slots := by
    intro c hc
    rcases Memory.mem_write hc with hc | hc
    · rw [hc]; exact h.head_lt
    · exact h.slots c hc
  written := by
    intro k hk
    rw [Ring.occ_put b h.head_lt h.tail_lt hf] at hk
    simp only [Ring.put_tail, Ring.put_buf]
    by_cases e : (r.tail + k) % C = r.head
    · rw [e]; simp
    · rw [Memory.read_write_other _ _ e]
      refine h.written k ?_
      rcases Nat.lt_or_ge k (r.occ C) with hlt | hge
      · exact hlt
      · exfalso
        have hk' : k = r.occ C := by omega
        apply e
        have hh := h.head_lt
        have ht := h.tail_lt
        rw [hk', Ring.occ_eq hh ht]
        split
        · rw [show r.tail + (r.head - r.tail) = r.head by omega]
          exact Nat.mod_eq_of_lt hh
        · rw [show r.tail + (r.head + C - r.tail) = r.head + C by omega, Nat.add_mod_right]
          exact Nat.mod_eq_of_lt hh

/-- A pop keeps a ring in order. -/
theorem RingOk.popped {C : Nat} {r : Ring} (h : RingOk C r) (hne : r.head ≠ r.tail) :
    RingOk C { r with tail := (r.tail + 1) % C } where
  head_lt := h.head_lt
  tail_lt := Nat.mod_lt _ (Nat.zero_lt_of_lt h.head_lt)
  wf := h.wf
  slots := h.slots
  written := by
    intro k hk
    have := Ring.occ_tail h.head_lt h.tail_lt hne
    have h2 := h.written (k + 1) (by omega)
    simpa [Nat.add_comm, Nat.add_left_comm, Nat.add_assoc] using h2

/-- A flush keeps a ring in order. -/
theorem RingOk.flushed {C : Nat} {r : Ring} (h : RingOk C r) : RingOk C r.flush where
  head_lt := h.head_lt
  tail_lt := h.head_lt
  wf := h.wf
  slots := h.slots
  written := by
    intro k hk
    simp [Ring.occ] at hk

/-- A ring in order that is not empty holds a byte at its tail. -/
theorem RingOk.pop_written {C : Nat} {r : Ring} (h : RingOk C r) (hne : r.head ≠ r.tail) :
    ∃ b, Memory.read r.buf r.tail = some b := by
  have hocc : 0 < r.occ C := by
    rw [Ring.occ_eq h.head_lt h.tail_lt]
    have := h.head_lt
    have := h.tail_lt
    split <;> omega
  have := h.written 0 hocc
  rw [Nat.add_zero, Nat.mod_eq_of_lt h.tail_lt] at this
  exact Option.isSome_iff_exists.mp this

/-! ## The order of checks -/

/-- If no check stops the operation, its body runs. -/
theorem guarded_pass {i : Instr} {s : State} {body : State → Host.Outcome State Fault Refusal}
    (hw : WellFormed i) (ho : owns i s.issuer = true) (hr : s.issuer = .rd → s.rdDone = false)
    (hb : s.issuer = .fg → stageBusy s = false) : guarded i s body = body s := by
  unfold guarded
  have hw' : i.wellFormed = true := hw
  rw [if_neg (by simp [hw']), if_neg (by simp [ho]), if_neg (by rintro ⟨a, b⟩; simp [hr a] at b),
    if_neg (by rintro ⟨a, b⟩; simp [hb a] at b)]

/-- Everything a checked operation can do, one case for each check in the order of R283. -/
theorem guarded_cases (i : Instr) (s : State) (body : State → Host.Outcome State Fault Refusal) :
    (i.wellFormed = false ∧ guarded i s body = .next (refuse (.illegalCommand (commandWord i)) s)) ∨
    (i.wellFormed = true ∧ owns i s.issuer = false ∧
      guarded i s body = .next (raiseViolation (.ownershipViolation i s.issuer) s)) ∨
    (i.wellFormed = true ∧ owns i s.issuer = true ∧ s.issuer = .rd ∧ s.rdDone = true ∧
      guarded i s body = .next (refuse .afterEnd s)) ∨
    (i.wellFormed = true ∧ owns i s.issuer = true ∧ s.issuer = .fg ∧ stageBusy s = true ∧
      guarded i s body = .next (hold i .encBusy s)) ∨
    (i.wellFormed = true ∧ owns i s.issuer = true ∧ (s.issuer = .rd → s.rdDone = false) ∧
      (s.issuer = .fg → stageBusy s = false) ∧ guarded i s body = body s) := by
  by_cases hw : i.wellFormed = true
  · by_cases ho : owns i s.issuer = true
    · by_cases hr : s.issuer = .rd ∧ s.rdDone = true
      · exact .inr (.inr (.inl ⟨hw, ho, hr.1, hr.2, by
          unfold guarded
          rw [if_neg (by simp [hw]), if_neg (by simp [ho]), if_pos hr]⟩))
      · by_cases hb : s.issuer = .fg ∧ stageBusy s = true
        · exact .inr (.inr (.inr (.inl ⟨hw, ho, hb.1, hb.2, by
            unfold guarded
            rw [if_neg (by simp [hw]), if_neg (by simp [ho]), if_neg hr, if_pos hb]⟩)))
        · have hr' : s.issuer = .rd → s.rdDone = false := by
            intro h; cases e : s.rdDone
            · rfl
            · exact absurd ⟨h, e⟩ hr
          have hb' : s.issuer = .fg → stageBusy s = false := by
            intro h; cases e : stageBusy s
            · rfl
            · exact absurd ⟨h, e⟩ hb
          exact .inr (.inr (.inr (.inr ⟨hw, ho, hr', hb', guarded_pass hw ho hr' hb'⟩)))
    · exact .inr (.inl ⟨hw, by simpa using ho, by simp [guarded, hw, ho]⟩)
  · exact .inl ⟨by simpa using hw, by simp [guarded, hw]⟩

/-! ## Frames of the shared steps -/

/-- Loading the stage touches the stage alone. -/
theorem encLoad_frame (e : Event) (s : State) :
    ∃ buf, encLoad e s = { s with encBuf := buf, encLen := (wireBytes e).length, encPos := 0 } := by
  cases e <;> exact ⟨_, rfl⟩

/-- A smoothing step touches raw_latest and, when it emits, acc, the stage, cyc_emit and the history. -/
theorem smoothStep_frame (k : Fin 6) (raw : BitVec 10) (s : State) :
    ∃ acc em buf len pos hist,
      smoothStep k raw s =
        { s with rawLatest := s.rawLatest.set k raw, acc := acc, cycEmit := em, encBuf := buf, encLen := len,
                 encPos := pos, history := hist } := by
  unfold smoothStep
  simp only
  split
  · exact ⟨_, _, _, _, _, _, rfl⟩
  · exact ⟨_, _, _, _, _, _, rfl⟩

/-- A debounce step touches dtimer and, when it emits, rep, the stage, cyc_emit and the history. -/
theorem debounceStep_frame (k : Fin 10) (raw : BitVec 1) (s : State) :
    ∃ rep tim em buf len pos hist,
      debounceStep k raw s =
        { s with rep := rep, dtimer := tim, cycEmit := em, encBuf := buf, encLen := len, encPos := pos,
                 history := hist } := by
  unfold debounceStep
  split
  · exact ⟨_, _, _, _, _, _, _, rfl⟩
  · exact ⟨_, _, _, _, _, _, _, rfl⟩

/-- Decoding a byte touches the decoder and the history. -/
theorem decodeByte_frame (b : Byte) (s : State) :
    ∃ st ch hi hist,
      (decodeByte b s).1 = { s with decState := st, decCh := ch, decHi := hi, history := hist } := by
  unfold decodeByte
  split
  · exact ⟨_, _, _, _, rfl⟩
  · unfold decodePayload
    split <;> exact ⟨_, _, _, _, rfl⟩

/-- Decoding bytes touches the decoder and the history. -/
theorem decodeBytes_frame (bs : List Byte) (s : State) :
    ∃ st ch hi hist,
      (decodeBytes bs s).1 = { s with decState := st, decCh := ch, decHi := hi, history := hist } := by
  induction bs generalizing s with
  | nil => exact ⟨_, _, _, _, rfl⟩
  | cons b bs ih =>
    cases bs with
    | nil => exact decodeByte_frame b s
    | cons c cs =>
      obtain ⟨st, ch, hi, hist, h⟩ := decodeByte_frame b s
      obtain ⟨st2, ch2, hi2, hist2, h2⟩ := ih (decodeByte b s).1
      refine ⟨st2, ch2, hi2, hist2, ?_⟩
      rw [show decodeBytes (b :: c :: cs) s = decodeBytes (c :: cs) (decodeByte b s).1 from rfl, h2, h]

/-- What the stage push can do (R224). -/
theorem stagePush_cases (s : State) :
    (stageBusy s = false ∧ stagePush s = s) ∨
    (stageBusy s = true ∧ s.tx.isFull s.cfg.cTx = true ∧ stagePush s = holdStage s) ∨
    (stageBusy s = true ∧ s.tx.isFull s.cfg.cTx = false ∧
      stagePush s = clearStageHold (stageAdvance { s with tx := s.tx.put s.cfg.cTx (stageByte s) })) := by
  unfold stagePush
  cases hb : stageBusy s
  · simp
  · cases hf : s.tx.isFull s.cfg.cTx <;> simp

end Sys2Proof.Machine
end

