-- ==== Sys2Proof/Laws/Exec.lean ====
section
/-! SUPPORT. What an operation and a step can do, each said once: the inversion of `exec` and of `step`, which the proofs about all operations cite. -/

namespace Sys2Proof.Machine

/-- A checked operation that passes the checks runs its body. -/
theorem Ready.pass {i : Instr} {s : State} {body : State → Host.Outcome State Fault Refusal} (h : Ready i s) :
    guarded i s body = body s :=
  guarded_pass h.legal h.owned h.reader h.stage

/-- What `complete` shows on the ports, where nothing before it touched them. -/
theorem portDone_complete {s u : State} (w : CmdWord) (hi : u.issuer = s.issuer) (hr : u.result = s.result)
    (hp : u.pending = s.pending) : PortDone s (complete w u) w := by
  refine ⟨by simp [hi], by simp [hi], fun a ha => ?_⟩
  simp [hi, hr, hp, PerAgent.get_set_other _ _ ha]

/-- What `hold` leaves. -/
theorem held_hold (i : Instr) (why : HoldReason) (s : State) : Held i why s (hold i why s) :=
  ⟨by simp, fun a ha => by simp [PerAgent.get_set_other _ _ ha], rfl⟩

/-- What `refuse` leaves on the ports. -/
theorem portCleared_refuse (why : RefuseReason) (s : State) : PortCleared s (refuse why s) :=
  ⟨by simp, fun a ha => by simp [PerAgent.get_set_other _ _ ha]⟩

/-- What `raise` leaves on the ports. -/
theorem portCleared_raise (v : Violation) (s : State) : PortCleared s (raiseViolation v s) :=
  ⟨by simp, fun a ha => by simp [PerAgent.get_set_other _ _ ha]⟩

/-- The effect of a performed operation on the state, before its result is given: one case for each way of one instruction. -/
inductive Effect (s : State) : Instr → State → Prop where
  | rxDrop (b : BitVec 8) (full : s.rx.isFull s.cfg.cRx = true) : Effect s (.rxpush b) (record (.rxDrop b) s)
  | rxPut (b : BitVec 8) (room : s.rx.isFull s.cfg.cRx = false) :
      Effect s (.rxpush b) { s with rx := s.rx.put s.cfg.cRx b }
  | rxEmpty (e : s.rx.head = s.rx.tail) : Effect s .rxpop s
  | rxTake (ne : s.rx.head ≠ s.rx.tail) :
      Effect s .rxpop { s with rx := { s.rx with tail := (s.rx.tail + 1) % s.cfg.cRx } }
  | rxCount : Effect s .rxavail s
  | rxFlush : Effect s .rxflush { s with rx := s.rx.flush }
  | txPut (b : BitVec 8) (room : s.tx.isFull s.cfg.cTx = false) :
      Effect s (.txpush b) { s with tx := s.tx.put s.cfg.cTx b }
  | txEmpty (e : s.tx.head = s.tx.tail) : Effect s .txpop s
  | txTake (b : Byte) (ne : s.tx.head ≠ s.tx.tail) :
      Effect s .txpop
        (record (.txOut b)
          { s with tx := { s.tx with tail := (s.tx.tail + 1) % s.cfg.cTx }, wire := s.wire ++ [b] })
  | txCount : Effect s .txavail s
  | txFlush : Effect s .txflush { s with tx := s.tx.flush }
  | enca (ch : BitVec 4) (v : BitVec 10) (e : Event) : Effect s (.enca ch v) (encLoad e s)
  | encd (ch : BitVec 4) (v : BitVec 1) (e : Event) : Effect s (.encd ch v) (encLoad e s)
  | smpa (ch : BitVec 4) (raw : BitVec 10) : Effect s (.smpa ch raw) (smoothStep (analogIx ch) raw s)
  | smpd (ch : BitVec 4) (raw : BitVec 1) : Effect s (.smpd ch raw) (debounceStep (digitalIx ch) raw s)
  | cycend :
      Effect s .cycend
        { s with actTimer := if s.cycEmit then s.cfg.actCycles else satDec s.actTimer, cycEmit := false }
  | decb (b : BitVec 8) : Effect s (.decb b) (decodeBytes [b] s).1
  | decnext (b : Byte) (ne : s.rx.head ≠ s.rx.tail) :
      Effect s .decnext
        (decodeBytes [b] { s with rx := { s.rx with tail := (s.rx.tail + 1) % s.cfg.cRx } }).1
  | streamEnd (e : s.rx.head = s.rx.tail) (eos : s.eos = true) : Effect s .decnext (endOfStream s)
  | hdrA (c : BitVec 6) : Effect s (.hdrA c) (decodeBytes [hdrAByte c] s).1
  | hdrD (c : BitVec 6) : Effect s (.hdrD c) (decodeBytes [hdrDByte c] s).1
  | payload (p : BitVec 7) : Effect s (.payload p) (decodeBytes [payloadByte p] s).1
  | pktA (c : BitVec 6) (h l : BitVec 7) :
      Effect s (.pktA c h l) (decodeBytes [hdrAByte c, payloadByte h, payloadByte l] s).1
  | pktD (c : BitVec 6) (v : BitVec 7) : Effect s (.pktD c v) (decodeBytes [hdrDByte c, payloadByte v] s).1

/-- Everything a next state of `exec` can be: refused or raised because a check did not pass, held, or performed with the checks passed. -/
inductive ExecNext (i : Instr) (s : State) : State → Prop where
  | refused (why : RefuseReason) (stop : ¬ Ready i s) : ExecNext i s (refuse why s)
  | raised (v : Violation) (stop : ¬ Ready i s) : ExecNext i s (raiseViolation v s)
  | held (why : HoldReason) : ExecNext i s (hold i why s)
  | performed (w : CmdWord) (u : State) (ready : Ready i s) (effect : Effect s i u) : ExecNext i s (complete w u)

/-- A checked operation's next state, when its body's next states are. -/
theorem guarded_next {i : Instr} {s t : State} {body : State → Host.Outcome State Fault Refusal}
    (h : guarded i s body = .next t) (hb : Ready i s → body s = .next t → ExecNext i s t) : ExecNext i s t := by
  rcases guarded_cases i s body with
    ⟨w, e⟩ | ⟨_, o, e⟩ | ⟨_, _, a, d, e⟩ | ⟨_, _, _, _, e⟩ | ⟨hw, ho, hr, hs, e⟩ <;> rw [e] at h
  · cases h; exact .refused _ fun r => by simp [show i.wellFormed = true from r.legal] at w
  · cases h; exact .raised _ fun r => by simp [r.owned] at o
  · cases h; exact .refused _ fun r => by simp [r.reader a] at d
  · cases h; exact .held _
  · exact hb ⟨hw, ho, hr, hs⟩ h

/-- The inversion of `exec`. -/
theorem exec_next {i : Instr} {s t : State} (h : exec i s = .next t) : ExecNext i s t := by
  cases i <;> simp only [exec] at h
  case reservedOp0 => cases h; exact .refused _ fun r => by simpa [owns, owners] using r.owned
  case rxpush b =>
    refine guarded_next h fun hr e => ?_
    split at e <;> cases e
    · exact .performed _ _ hr (.rxDrop b ‹_›)
    · rename_i hf
      exact .performed _ _ hr (.rxPut b (by simpa using hf))
  case rxpop =>
    refine guarded_next h fun hr e => ?_
    rcases Ring.pop_cases s.cfg.cRx s.rx with ⟨e0, e1⟩ | ⟨ne, b, _, e1⟩ | ⟨_, _, e1⟩ <;> rw [e1] at e <;> cases e
    · exact .performed _ _ hr (.rxEmpty e0)
    · exact .performed _ _ hr (.rxTake ne)
  case rxavail => exact guarded_next h fun hr e => by cases e; exact .performed _ _ hr .rxCount
  case rxflush => exact guarded_next h fun hr e => by cases e; exact .performed _ _ hr .rxFlush
  case txpush b =>
    refine guarded_next h fun hr e => ?_
    split at e <;> cases e
    · exact .held _
    · rename_i hf
      exact .performed _ _ hr (.txPut b (by simpa using hf))
  case txpop =>
    refine guarded_next h fun hr e => ?_
    rcases Ring.pop_cases s.cfg.cTx s.tx with ⟨e0, e1⟩ | ⟨ne, b, _, e1⟩ | ⟨_, _, e1⟩ <;> rw [e1] at e <;> cases e
    · exact .performed _ _ hr (.txEmpty e0)
    · exact .performed _ _ hr (.txTake b ne)
  case txavail => exact guarded_next h fun hr e => by cases e; exact .performed _ _ hr .txCount
  case txflush => exact guarded_next h fun hr e => by cases e; exact .performed _ _ hr .txFlush
  case enca ch v => exact guarded_next h fun hr e => by cases e; exact .performed _ _ hr (.enca ch v _)
  case encd ch v => exact guarded_next h fun hr e => by cases e; exact .performed _ _ hr (.encd ch v _)
  case smpa ch raw => exact guarded_next h fun hr e => by cases e; exact .performed _ _ hr (.smpa ch raw)
  case smpd ch raw => exact guarded_next h fun hr e => by cases e; exact .performed _ _ hr (.smpd ch raw)
  case cycend => exact guarded_next h fun hr e => by cases e; exact .performed _ _ hr .cycend
  case decb b => exact guarded_next h fun hr e => by cases e; exact .performed _ _ hr (.decb b)
  case decnext =>
    refine guarded_next h fun hr e => ?_
    rcases Ring.pop_cases s.cfg.cRx s.rx with ⟨e0, e1⟩ | ⟨ne, b, _, e1⟩ | ⟨_, _, e1⟩ <;> simp only [e1] at e
    · split at e <;> cases e
      · exact .performed _ _ hr (.streamEnd e0 ‹_›)
      · exact .held _
    · cases e; exact .performed _ _ hr (.decnext b ne)
    · cases e
  case hdrA c => exact guarded_next h fun hr e => by cases e; exact .performed _ _ hr (.hdrA c)
  case hdrD c => exact guarded_next h fun hr e => by cases e; exact .performed _ _ hr (.hdrD c)
  case payload p => exact guarded_next h fun hr e => by cases e; exact .performed _ _ hr (.payload p)
  case pktA c hi lo => exact guarded_next h fun hr e => by cases e; exact .performed _ _ hr (.pktA c hi lo)
  case pktD c v => exact guarded_next h fun hr e => by cases e; exact .performed _ _ hr (.pktD c v)

/-- What no performed effect writes: the latches (R58), the issuer, the ports and the pending slots. -/
theorem Effect.frame {s u : State} {i : Instr} (h : Effect s i u) :
    u.faultLatch = s.faultLatch ∧ u.refusalLatch = s.refusalLatch ∧ u.issuer = s.issuer ∧ u.result = s.result ∧
    u.pending = s.pending := by
  have dec : ∀ bs (v : State), (decodeBytes bs v).1.faultLatch = v.faultLatch ∧
      (decodeBytes bs v).1.refusalLatch = v.refusalLatch ∧ (decodeBytes bs v).1.issuer = v.issuer ∧
      (decodeBytes bs v).1.result = v.result ∧ (decodeBytes bs v).1.pending = v.pending := by
    intro bs v
    obtain ⟨_, _, _, _, e⟩ := decodeBytes_frame bs v
    rw [e]; exact ⟨rfl, rfl, rfl, rfl, rfl⟩
  cases h with
  | enca ch v e => cases e <;> exact ⟨rfl, rfl, rfl, rfl, rfl⟩
  | encd ch v e => cases e <;> exact ⟨rfl, rfl, rfl, rfl, rfl⟩
  | smpa ch raw =>
    obtain ⟨_, _, _, _, _, _, e⟩ := smoothStep_frame (analogIx ch) raw s
    rw [e]; exact ⟨rfl, rfl, rfl, rfl, rfl⟩
  | smpd ch raw =>
    obtain ⟨_, _, _, _, _, _, _, e⟩ := debounceStep_frame (digitalIx ch) raw s
    rw [e]; exact ⟨rfl, rfl, rfl, rfl, rfl⟩
  | decb b => exact dec _ _
  | decnext b ne => exact dec _ _
  | hdrA c => exact dec _ _
  | hdrD c => exact dec _ _
  | payload p => exact dec _ _
  | pktA c h l => exact dec _ _
  | pktD c v => exact dec _ _
  | _ => exact ⟨rfl, rfl, rfl, rfl, rfl⟩

/-- What a performable operation answers: its effect, with the result given. -/
theorem Performable.performs {i : Instr} {s : State} (h : Performable i s) :
    ∃ w u, exec i s = .next (complete w u) ∧ Effect s i u := by
  obtain ⟨hr, t, e, hp⟩ := h
  cases exec_next e with
  | refused why stop => exact (stop hr).elim
  | raised v stop => exact (stop hr).elim
  | held why => simp at hp
  | performed w u _ effect => exact ⟨w, u, e, effect⟩

/-- An agent that issues attempts what it presents. -/
theorem agentIssue_presented {a : Agent} {s s' : State} {it : Item} (h : presented a s = some (it, s')) :
    agentIssue a s = attempt a it s' := by
  cases hp : s.pending.get a with
  | some p =>
    obtain ⟨op, why⟩ := p
    cases op <;> simp only [presented, hp] at h <;> cases h
    simp only [agentIssue, hp]
  | none =>
    cases hs : s.streams.get a with
    | nil => simp only [presented, hp, hs] at h; cases h
    | cons it rest =>
      simp only [presented, hp, hs] at h; cases h
      simp only [agentIssue, hp, hs]

/-- Attempting an item whose instruction is performable is running that instruction. -/
theorem attempt_performable {a : Agent} {it : Item} {s : State} {i : Instr} (h : itemInstr it s = some i)
    (hp : Performable i { s with issuer := a }) : attempt a it s = exec i { s with issuer := a } := by
  have keep : keepIssuedIn a it (exec i { s with issuer := a }) = exec i { s with issuer := a } := by
    obtain ⟨_, t, e, hn⟩ := hp
    rw [e]
    show Host.Outcome.next (keepIssued a it t) = _
    simp only [keepIssued, show t.pending.get a = none from hn]
  cases it with
  | code c =>
    simp only [itemInstr] at h
    split at h <;> cases h
    rename_i e
    simp only [attempt, runCode, e]
  | sampleA ch => cases h; exact keep
  | sampleD ch => cases h; exact keep

/-- s' is s but for the environment's data, the issuer and the pending slots. -/
def SameBlock (s s' : State) : Prop :=
  s' = { s with ain := s'.ain, din := s'.din, eos := s'.eos, issuer := s'.issuer, streams := s'.streams,
                schedule := s'.schedule, wire := s'.wire, pending := s'.pending }

/-- What a step does to the block, between two changes outside it. -/
inductive BlockStep (s : State) : State → Prop where
  | nothing : BlockStep s s
  | stage : BlockStep s (stagePush s)
  | reset (eos : Bool) : BlockStep s (resetBlock eos s)
  | illegal (why : RefuseReason) : BlockStep s (refuse why s)
  | performs (i : Instr) (t : State) (h : exec i s = .next t) : BlockStep s t

/-- A state after a step of s: the block's own change, with changes outside the block before and after. -/
def StepNext (s t : State) : Prop := ∃ u v, SameBlock s u ∧ BlockStep u v ∧ SameBlock v t

theorem stepNext_env {s t : State} (h : SameBlock s t) : StepNext s t := ⟨t, t, h, .nothing, rfl⟩

/-- What presenting a code can do. -/
theorem runCode_next {a : Agent} {c : Code} {s t : State} (h : runCode a c s = .next t) : StepNext s t := by
  unfold runCode at h
  split at h
  · exact ⟨{ s with issuer := a }, t, rfl, .performs _ _ h, rfl⟩
  · cases h; exact ⟨{ s with issuer := a }, _, rfl, .illegal _, rfl⟩
  · cases h

/-- What presenting an item can do. -/
theorem attempt_next {a : Agent} {it : Item} {s t : State} (h : attempt a it s = .next t) : StepNext s t := by
  have keep : ∀ i, keepIssuedIn a it (exec i { s with issuer := a }) = .next t → StepNext s t := by
    intro i e
    unfold keepIssuedIn at e
    split at e
    · cases e
      refine ⟨{ s with issuer := a }, _, rfl, .performs i _ ‹_›, ?_⟩
      unfold keepIssued
      split <;> exact rfl
    · rename_i hn
      exact (hn _ e).elim
  cases it with
  | code c => exact runCode_next h
  | sampleA ch => exact keep _ h
  | sampleD ch => exact keep _ h

/-- What an agent's issue can do. -/
theorem agentIssue_next {a : Agent} {s t : State} (h : agentIssue a s = .next t) : StepNext s t := by
  unfold agentIssue at h
  split at h
  · split at h <;> cases h
    · exact ⟨s, _, rfl, .stage, rfl⟩
    · exact stepNext_env rfl
  · exact attempt_next h
  · split at h
    · cases h; exact stepNext_env rfl
    · obtain ⟨u, v, h1, h2, h3⟩ := attempt_next h
      exact ⟨u, v, h1, h2, h3⟩

/-- What a move can do. -/
theorem runMove_next {m : Move} {s t : State} (h : runMove m s = .next t) : StepNext s t := by
  cases m with
  | run a =>
    simp only [runMove, agentTurn] at h
    split at h
    · cases h; exact ⟨s, _, rfl, .stage, rfl⟩
    · exact agentIssue_next h
  | issue a => exact agentIssue_next h
  | stage => cases h; exact ⟨s, _, rfl, .stage, rfl⟩
  | rst eos => cases h; exact ⟨s, _, rfl, .reset eos, rfl⟩
  | raiseEos => cases h; exact stepNext_env rfl
  | setAin i v => cases h; exact stepNext_env rfl
  | setDin j v => cases h; exact stepNext_env rfl
  | supply a it =>
    simp only [runMove] at h
    split at h <;> cases h
    exact stepNext_env rfl
  | deliver =>
    simp only [runMove] at h
    split at h <;> cases h
    exact stepNext_env rfl
  | lose =>
    simp only [runMove] at h
    split at h <;> cases h
    exact stepNext_env rfl
  | corrupt b =>
    simp only [runMove] at h
    split at h <;> cases h
    exact stepNext_env rfl

/-- The inversion of `step`. -/
theorem step_next {s t : State} (h : step s = .next t) : StepNext s t := by
  unfold step turn at h
  split at h
  · cases h; exact stepNext_env rfl
  · obtain ⟨u, v, h1, h2, h3⟩ := runMove_next h
    exact ⟨u, v, h1, h2, h3⟩

end Sys2Proof.Machine
end

