-- ==== Sys2Proof/Tests/Slice0.lean ====
section
/-! SUPPORT. Small tests. Expected values are the spec's own: the vectors of spec/95_test_vectors.md and words written out from spec/30_encoding.md. -/

namespace Sys2Proof.Machine.Tests

open Host (Outcome)

/-- The outcome is a next state that meets p. -/
def onNext (o : Outcome State Fault Refusal) (p : State → Bool) : Bool :=
  match o with
  | .next t => p t
  | .fault _ | .refused _ => false

/-- The reset state with an operation presented by agent a. -/
def by_ (a : Agent) (s : State) : State := { s with issuer := a }

/-- A ring of given indices that holds the given (slot, byte) pairs. -/
def ring (cells : List Host.Cell) (h t : Nat) : Ring := ⟨cells, h, t⟩

/-- The decoder in a given state. -/
def dec (st : DecState) (ch : BitVec 6) (hi : BitVec 7) : State :=
  { State.reset with issuer := .rd, decState := st, decCh := ch, decHi := hi }

/-- The reset state with ring capacities of 4 (programs P2 and P3). -/
def cap4 : State := { State.reset with cfg := { Config.default with cRx := 4, cTx := 4 } }

/-- The stage loaded with a 3-byte packet, k bytes pushed. -/
def busy (k : Nat) : State :=
  { State.reset with encBuf := #v[0x82, 0x00, 0x33], encLen := 3, encPos := k }

/-! ## WellFormed: an ill-formed term for each check (R118) -/

theorem test_illformed_enca : ¬ WellFormed (.enca 6 0) := by decide
theorem test_illformed_smpa : ¬ WellFormed (.smpa 15 0) := by decide
theorem test_illformed_encd : ¬ WellFormed (.encd 10 0) := by decide
theorem test_illformed_smpd : ¬ WellFormed (.smpd 10 1) := by decide
theorem test_wellformed_limits :
    WellFormed (.enca 5 1023) ∧ WellFormed (.smpa 5 0) ∧ WellFormed (.encd 9 1) ∧ WellFormed (.smpd 9 1) := by decide

/-! ## Decoding: each row's word written out bit by bit from R117, R101, R105, R106 -/

theorem test_decode_rxpush : decodeCommand 0b0001_0000_000000_0010000000 = .ok (.rxpush 0x80) := by decide
theorem test_decode_rxpop : decodeCommand 0b0010_0000_000000_0000000000 = .ok .rxpop := by decide
theorem test_decode_rxavail : decodeCommand 0b0011_0000_000000_0000000000 = .ok .rxavail := by decide
theorem test_decode_rxflush : decodeCommand 0b0100_0000_000000_0000000000 = .ok .rxflush := by decide
theorem test_decode_txpush : decodeCommand 0b0101_0000_000000_0001000001 = .ok (.txpush 0x41) := by decide
theorem test_decode_txpop : decodeCommand 0b0110_0000_000000_0000000000 = .ok .txpop := by decide
theorem test_decode_txavail : decodeCommand 0b0111_0000_000000_0000000000 = .ok .txavail := by decide
theorem test_decode_txflush : decodeCommand 0b1000_0000_000000_0000000000 = .ok .txflush := by decide
theorem test_decode_enca : decodeCommand 0b1001_0101_000000_1111111110 = .ok (.enca 5 1022) := by decide
theorem test_decode_encd : decodeCommand 0b1010_0101_000000_0000000001 = .ok (.encd 5 1) := by decide
theorem test_decode_smpa : decodeCommand 0b1011_0010_000000_1000000000 = .ok (.smpa 2 512) := by decide
theorem test_decode_smpd : decodeCommand 0b1100_1001_000000_0000000001 = .ok (.smpd 9 1) := by decide
theorem test_decode_cycend : decodeCommand 0b1101_0000_000000_0000000000 = .ok .cycend := by decide
theorem test_decode_decb : decodeCommand 0b1110_0000_000000_0011000101 = .ok (.decb 0xC5) := by decide
theorem test_decode_decnext : decodeCommand 0b1111_0000_000000_0000000000 = .ok .decnext := by decide
theorem test_decode_reserved : decodeCommand 0b0000_0000_000000_0000000011 = .ok (.reservedOp0 3) := by decide
theorem test_decode_hdrA : decodeWire [0b10_000010] = .ok (.hdrA 2) := by decide
theorem test_decode_hdrD : decodeWire [0b11_111110] = .ok (.hdrD 0x3E) := by decide
theorem test_decode_payload : decodeWire [0b0_1010101] = .ok (.payload 0x55) := by decide
theorem test_decode_pktA : decodeWire [0b10_000101, 0b0_0000111, 0b0_1111111] = .ok (.pktA 5 7 127) := by decide
theorem test_decode_pktD : decodeWire [0b11_001001, 0b0_0000001] = .ok (.pktD 9 1) := by decide
/-- W10, W13, W14, W15, W16: a bit outside the operation's fields. -/
theorem test_decode_reservedBits :
    [0x100180, 0xA00002, 0x200001, 0xD10000, 0xB00400].map decodeCommand =
      List.replicate 5 (.error .reservedBits) := by decide
/-- W11, W12: a channel out of range. -/
theorem test_decode_channel :
    [0x960000, 0xAA0001].map decodeCommand = List.replicate 2 (.error .channelOutOfRange) := by decide
/-- A header where a payload belongs, and a run of four bytes, are no unit of the wire encoding. -/
theorem test_decode_notAWireUnit :
    decodeWire [0x80, 0x81, 0x00] = .error .notAWireUnit ∧ decodeWire [0xC0, 0, 0, 0] = .error .notAWireUnit := by
  decide
/-- R123's worked encodings. -/
theorem test_encode_worked :
    [Instr.smpa 2 512, .enca 2 51, .encd 5 1, .decb 0xC5, .rxpush 0x80, .cycend].map commandWord =
      [0xB20200, 0x920033, 0xA50001, 0xE000C5, 0x100080, 0xD00000] := by decide
/-- The table numbers a packet with its first byte in the high bits. -/
theorem test_table_packet :
    decodeTableWord 24 0xBF7F7F = some (.pktA 0x3F 0x7F 0x7F) ∧ decodeTableWord 16 0xC97F = some (.pktD 9 0x7F) ∧
    decodeTableWord 8 0x83 = some (.hdrA 3) ∧ decodeTableWord 24 0x800000 = some .txflush := by decide

/-! ## Rings (L2-R) -/

theorem test_R1_rxpush :
    onNext (exec (.rxpush 0x80) (by_ .rxi State.reset))
      (fun t => t.rx = ring [(0, 0x80)] 1 0 ∧ t.result.rxi = some 1) := by decide
theorem test_R3_rxpush_wraps :
    onNext (exec (.rxpush 0x11) { State.reset with rx := ring [] 127 5, issuer := .rxi })
      (fun t => t.rx = ring [(127, 0x11)] 0 5) := by decide
theorem test_R4_rxpush_full :
    onNext (exec (.rxpush 0x22) { State.reset with rx := ring [] 4 5, issuer := .rxi })
      (fun t => t.rx = ring [] 4 5 ∧ t.history = [.rxDrop 0x22] ∧ t.result.rxi = some 0) := by decide
theorem test_R2_rxpop_empty :
    onNext (exec .rxpop (by_ .rd State.reset)) (fun t => t.rx = Ring.reset ∧ t.result.rd = some 0) := by decide
theorem test_R8_rxpop_wraps :
    onNext (exec .rxpop { State.reset with rx := ring [(127, 0x9A)] 3 127, issuer := .rd })
      (fun t => t.rx.tail = 0 ∧ t.result.rd = some 0x00019A) := by decide
theorem test_R5_rxavail :
    onNext (exec .rxavail { State.reset with rx := ring [] 2 126, issuer := .txi })
      (fun t => t.result.txi = some 4) := by decide
theorem test_R6_rxavail_full :
    onNext (exec .rxavail { State.reset with rx := ring [] 4 5 }) (fun t => t.result.fg = some 0x7F) := by decide
theorem test_R7_rxflush :
    onNext (exec .rxflush { State.reset with rx := ring [] 5 1, issuer := .rd })
      (fun t => t.rx.tail = 5 ∧ t.rx.occ 128 = 0) := by decide
theorem test_R9_txpush :
    onNext (exec (.txpush 0x41) State.reset) (fun t => t.tx = ring [(0, 0x41)] 1 0) := by decide
theorem test_R10_txpush_full :
    onNext (exec (.txpush 0x41) { State.reset with tx := ring [] 31 0 })
      (fun t => t.tx = ring [] 31 0 ∧ t.pending.fg = some ⟨.item (.code (.command 0x500041)), .txFull⟩) := by decide
theorem test_R12_txpop_empty :
    onNext (exec .txpop (by_ .txi State.reset)) (fun t => t.history = [] ∧ t.result.txi = some 0) := by decide
theorem test_R16_txpop :
    onNext (exec .txpop { State.reset with tx := ring [(0, 0x82), (1, 0)] 2 0, issuer := .txi })
      (fun t => t.tx.tail = 1 ∧ t.result.txi = some 0x182 ∧ t.history = [.txOut 0x82] ∧ t.wire = [0x82]) := by
  decide
theorem test_R13_txavail_full :
    onNext (exec .txavail { State.reset with tx := ring [] 0 1, issuer := .rxi })
      (fun t => t.result.rxi = some 31) := by decide
theorem test_R14_txflush :
    onNext (exec .txflush { State.reset with tx := ring [] 3 0, issuer := .txi })
      (fun t => t.tx.tail = 3 ∧ t.history = []) := by decide

/-! ## Sampler (L2-S) -/

theorem test_S1_smpa :
    onNext (exec (.smpa 2 512) State.reset)
      (fun t => t.acc[2] = 51 ∧ t.rawLatest[2] = 512 ∧ t.encBuf = #v[0x82, 0x00, 0x33] ∧ t.encLen = 3) := by decide
theorem test_S3_smpa_stalls :
    onNext (exec (.smpa 2 512) { State.reset with acc := #v[0, 0, 503, 0, 0, 0] })
      (fun t => t.acc[2] = 503 ∧ t.encLen = 0 ∧ t.history = []) := by decide
theorem test_S10_smpd :
    onNext (exec (.smpd 0 1) State.reset)
      (fun t => t.rep[0] = 1 ∧ t.dtimer[0] = 9 ∧ t.encBuf[0] = 0xC0 ∧ t.encBuf[1] = 1 ∧ t.encLen = 2 ∧
        t.history = [.emit (.digital 0 1)]) := by decide
theorem test_S11_smpd_waits :
    onNext (exec (.smpd 0 0) { State.reset with rep := State.reset.rep.set 0 1, dtimer := State.reset.dtimer.set 0 5 })
      (fun t => t.rep[0] = 1 ∧ t.dtimer[0] = 4 ∧ t.encLen = 0) := by decide
theorem test_S15_cycend :
    onNext (exec .cycend { State.reset with cycEmit := true })
      (fun t => t.actTimer = 5 ∧ t.cycEmit = false ∧ activityOut t = true) := by decide
theorem test_S17_cycend_saturates :
    onNext (exec .cycend State.reset) (fun t => t.actTimer = 0 ∧ activityOut t = false) := by decide
theorem test_S20_encBusy :
    onNext (exec (.smpd 0 1) (busy 0))
      (fun t => t.rep[0] = 0 ∧ t.pending.fg.map Pending.reason = some .encBusy) := by decide

/-! ## Encoder (L2-E) -/

theorem test_E4_enca :
    onNext (exec (.enca 5 1023) State.reset)
      (fun t => t.encBuf = #v[0x85, 0x07, 0x7F] ∧ t.encLen = 3 ∧ t.cycEmit = false ∧ t.history = []) := by decide
theorem test_E8_encd :
    onNext (exec (.encd 9 1) State.reset) (fun t => t.encBuf[0] = 0xC9 ∧ t.encBuf[1] = 1 ∧ t.encLen = 2) := by decide
theorem test_stage_push :
    (stagePush (busy 0)).tx = ring [(0, 0x82)] 1 0 ∧ (stagePush (busy 0)).encPos = 1 ∧
      (stagePush (busy 2)).encLen = 0 := by decide
/-- P3, steps 6 to 8: the stage holds TxFull, TXI pops, the stage pushes. -/
theorem test_stage_txFull :
    (stagePush { busy 1 with tx := ring [] 31 0 }).pending.fg = some ⟨.stage, .txFull⟩ ∧
      (stagePush { busy 1 with tx := ring [] 31 1, pending := ⟨some ⟨.stage, .txFull⟩, none, none, none⟩ }).pending.fg
        = none := by decide

/-! ## Decoder (L2-D) -/

theorem test_D9_decb :
    onNext (exec (.decb 0x11) (dec .awaitAnalogLow 3 5))
      (fun t => t.decState = .idle ∧ t.decCh = 0 ∧ t.decHi = 0 ∧ t.result.rd = some 0x830291) := by decide
theorem test_D8_decb_aborts :
    onNext (exec (.decb 0xC0) (dec .awaitAnalogLow 3 5))
      (fun t => t.decState = .awaitDigitalValue ∧ t.decCh = 0 ∧ t.history = [] ∧ t.result.rd = some 0) := by decide
theorem test_D19_decnext :
    onNext (exec .decnext { dec .awaitDigitalValue 5 0 with rx := ring [(0, 0xC5), (1, 0x01)] 2 1 })
      (fun t => t.rx.tail = 2 ∧ t.result.rd = some 0xC50001 ∧ t.history = [.event (.digital 5 1)]) := by decide
theorem test_D21_decnext_end :
    onNext (exec .decnext { dec .awaitAnalogLow 3 5 with eos := true })
      (fun t => t.rdDone = true ∧ t.decState = .idle ∧ t.result.rd = some 0x008000 ∧ t.history = [.endOfStream]) := by
  decide
theorem test_D1_hdrA :
    onNext (exec (.hdrA 3) (dec .idle 0 0)) (fun t => t.decState = .awaitAnalogHigh ∧ t.decCh = 3) := by decide
theorem test_D5_hdrD :
    onNext (exec (.hdrD 2) (dec .awaitAnalogHigh 3 0)) (fun t => t.decState = .awaitDigitalValue ∧ t.decCh = 2) := by
  decide
theorem test_D6_payload :
    onNext (exec (.payload 5) (dec .awaitAnalogHigh 3 0)) (fun t => t.decState = .awaitAnalogLow ∧ t.decHi = 5) := by
  decide
/-- L1-8: BF 7F 7F decodes to Analog(63, 16383). -/
theorem test_pktA :
    onNext (exec (.pktA 0x3F 0x7F 0x7F) (dec .awaitAnalogLow 3 5))
      (fun t => t.result.rd = some 0xBF3FFF ∧ t.history = [.event (.analog 63 16383)]) := by decide
/-- D14: C9 7F decodes to Digital(9, 127). -/
theorem test_pktD :
    onNext (exec (.pktD 9 0x7F) (dec .idle 0 0)) (fun t => t.result.rd = some 0xC9007F ∧ t.decState = .idle) := by decide

/-! ## Checks and reset (L2-X, L2-Z) -/

theorem test_X2_ownership :
    onNext (exec .txpop State.reset) (fun t => t.faultLatch = some (.ownershipViolation .txpop .fg)) := by decide
theorem test_X5_illegal_before_ownership :
    onNext (exec (.smpa 7 0) (by_ .txi State.reset))
      (fun t => t.refusalLatch = some (.illegalCommand 0xB70000) ∧ t.faultLatch = none) := by decide
theorem test_X6_afterEnd :
    onNext (exec .rxpop { dec .idle 0 0 with rdDone := true }) (fun t => t.refusalLatch = some .afterEnd) := by decide
theorem test_X7_ownership_before_afterEnd :
    onNext (exec (.rxpush 0x41) { dec .idle 0 0 with rdDone := true })
      (fun t => t.refusalLatch = none ∧ t.faultLatch = some (.ownershipViolation (.rxpush 0x41) .rd)) := by decide
theorem test_X8_encBusy_first :
    onNext (exec .txavail { busy 0 with tx := ring [] 31 0 })
      (fun t => t.result.fg = none ∧ t.pending.fg.map Pending.reason = some .encBusy) := by decide
theorem test_reserved :
    onNext (exec (.reservedOp0 0) (by_ .rd State.reset))
      (fun t => t.refusalLatch = some (.illegalCommand 0) ∧ t.history = []) := by decide
theorem test_Z1_reset :
    (resetBlock false { busy 1 with tx := ring [(0, 1)] 1 0, faultLatch := some (.ownershipViolation .txpop .fg) }).tx
        = Ring.reset ∧
      (resetBlock false { busy 1 with faultLatch := some (.ownershipViolation .txpop .fg) }).faultLatch.isSome = true ∧
      (resetBlock false (busy 1)).encLen = 0 := by decide

/-! ## Steps -/

/-- A row's word placed at reset runs as the first instruction. -/
theorem test_step_smpa :
    onNext (step (State.reset.withFetchWord 24 0xB20200)) (fun t => t.acc[2] = 51 ∧ t.streams.fg = []) := by decide
/-- An illegal word is refused and the machine goes on. -/
theorem test_step_illegal :
    onNext (step (State.reset.withFetchWord 24 0x100180))
      (fun t => t.refusalLatch = some (.illegalCommand 0x100180)) := by decide
/-- P3, step 9: FG issues while the stage is busy; the operation stays pending. -/
theorem test_step_issue_busy :
    onNext (step { busy 1 with streams := ⟨[.code (.command 0x700000)], [], [], []⟩, schedule := [.issue .fg] })
      (fun t => t.pending.fg = some ⟨.item (.code (.command 0x700000)), .encBusy⟩ ∧ t.streams.fg = []) := by decide
/-- R224: FG's next step while the stage is busy is the stage push. -/
theorem test_step_run_busy :
    onNext (step { busy 1 with streams := ⟨[.code (.command 0x700000)], [], [], []⟩, schedule := [.run .fg] })
      (fun t => t.tx.head = 1 ∧ t.streams.fg = [.code (.command 0x700000)]) := by decide
/-- Loopback: a byte the transmitter took is offered to RXI (R82). -/
theorem test_step_deliver :
    onNext (step { State.reset with cfg := { Config.default with wireModel := .loopback }, wire := [0x82],
                                    schedule := [.deliver] })
      (fun t => t.wire = [] ∧ t.streams.rxi = [.code (.command 0x100082)]) := by decide
/-- A port sample reads `ain` when it is performed (R127). -/
theorem test_step_sample :
    onNext (step { State.reset with ain := #v[0, 0, 0, 0, 0, 20], streams := ⟨[.sampleA 5], [], [], []⟩,
                                    schedule := [.run .fg] })
      (fun t => t.acc[5] = 2 ∧ t.rawLatest[5] = 20) := by decide
/-- P2, step 6: with C_RX = 4 the push wraps. -/
theorem test_cap4_wrap :
    onNext (exec (.rxpush 0x45) { cap4 with rx := ring [(0, 0x41), (1, 0x42), (2, 0x43)] 3 1, issuer := .rxi })
      (fun t => t.rx.head = 0 ∧ t.result.rxi = some 1) := by decide

/-! ## Macros and assembler text -/

/-- P6: CYCLE expands to 17 operations, the first 0xB00200, the last 0xD00000. -/
theorem test_cycle :
    (cycleWith Config.default #v[512, 0, 0, 0, 0, 20] #v[1, 0, 0, 0, 0, 0, 0, 0, 0, 1]).length = 17 ∧
      (cycleWith Config.default #v[512, 0, 0, 0, 0, 20] #v[1, 0, 0, 0, 0, 0, 0, 0, 0, 1]).head? =
        some (.code (.command 0xB00200)) := by decide
/-- `FG: ENCA 2, 51` with a comment (R122, R123). -/
theorem test_assemble_enca :
    assembleLine Config.default
        ['F', 'G', ':', ' ', 'E', 'N', 'C', 'A', ' ', '2', ',', ' ', '5', '1', ' ', ';', 'x'] =
      some (some .fg, [.code (.command 0x920033)]) := by decide
/-- `DECB 0xC5 *2`. -/
theorem test_assemble_repeat :
    assembleLine Config.default ['D', 'E', 'C', 'B', ' ', '0', 'x', 'C', '5', ' ', '*', '2'] =
      some (none, [.code (.command 0xE000C5), .code (.command 0xE000C5)]) := by decide

/-! ## Witnesses: for each statement of Certificates/Slice0/Obligations.lean with hypotheses, states and operands that meet them, clause by clause -/

/-- An RX ring that wraps: 4 unread bytes, tail 126. -/
def rxRing : Ring := ring [(0, 0x05), (1, 0x11), (126, 0x83), (127, 0xC5)] 2 126

/-- A full TX ring of capacity 4. -/
def txRing : Ring := ring [(0, 0x82), (1, 0x00), (2, 0x33), (3, 0xC5)] 0 1

/-- Agent a presents an operation with both rings in use. -/
def inUse (a : Agent) : State :=
  { State.reset with cfg := { Config.default with cTx := 4 }, rx := rxRing, tx := txRing, issuer := a }

/-- An RX ring with an unread slot that nothing wrote: no reachable state. -/
def unwrittenRx : State := { State.reset with rx := ring [] 1 0, issuer := .rd }

/-- The same on the TX side. -/
def unwrittenTx : State := { State.reset with tx := ring [] 1 0, issuer := .txi }

theorem witness_rxRing : RingOk 128 rxRing := ⟨by decide, by decide, by decide, by decide, by decide⟩
theorem witness_txRing : RingOk 4 txRing := ⟨by decide, by decide, by decide, by decide, by decide⟩
theorem witness_valid : Config.default.Valid ∧ ({ Config.default with cTx := 4 } : Config).Valid ∧
    ({ Config.default with w := 1000 } : Config).Valid :=
  ⟨⟨by decide, by decide, by decide, by decide, by decide, by decide, by decide, by decide, .refl _⟩,
    ⟨by decide, by decide, by decide, by decide, by decide, by decide, by decide, by decide, .refl _⟩,
    ⟨by decide, by decide, by decide, by decide, by decide, by decide, by decide, by decide, .refl _⟩⟩

theorem witness_DecodeOfEncode : WellFormed (.enca 5 1023) ∧ WellFormed (.smpd 9 1) ∧ WellFormed (.pktA 63 127 127) := by
  decide
theorem witness_EncodeOfDecodedCommand : decodeCommand 0x9503FF = .ok (.enca 5 1023) := by decide
theorem witness_EncodeOfDecodedWire : decodeWire [0xFF, 0x7F] = .ok (.pktD 63 127) := by decide
theorem witness_IllegalWordIsRefused : State.reset.pending.get .rd = none ∧
    ¬ LegalWord 0x000000 ∧ ¬ LegalWord 0x100100 ∧ ¬ LegalWord 0x960000 ∧ ¬ LegalWord 0xAA0000 := by
  simp only [LegalWord, commandRows]; decide
theorem witness_RxpushStoresOrDrops :
    Ready (.rxpush 0xFF) { State.reset with rx := ring [] 127 5, issuer := .rxi } ∧
    Ready (.rxpush 0xFF) { State.reset with rx := ring [] 4 5, issuer := .rxi } ∧ (4 + 1) % 128 = 5 :=
  ⟨⟨by decide, by decide, by decide, by decide⟩, ⟨by decide, by decide, by decide, by decide⟩, rfl⟩
theorem witness_RxpopTakesOldest :
    Ready .rxpop (by_ .rd State.reset) ∧
    (Ready .rxpop (inUse .rd) ∧ (inUse .rd).rx.head ≠ (inUse .rd).rx.tail ∧
      Memory.read (inUse .rd).rx.buf (inUse .rd).rx.tail = some 0x83) ∧
    (Ready .rxpop unwrittenRx ∧ unwrittenRx.rx.head ≠ unwrittenRx.rx.tail ∧
      Memory.read unwrittenRx.rx.buf unwrittenRx.rx.tail = none) :=
  ⟨⟨by decide, by decide, by decide, by decide⟩,
    ⟨⟨by decide, by decide, by decide, by decide⟩, by decide, by decide⟩,
    ⟨⟨by decide, by decide, by decide, by decide⟩, by decide, by decide⟩⟩
theorem witness_AvailCountsUnread :
    RingOk (inUse .txi).cfg.cRx (inUse .txi).rx ∧ RingOk (inUse .txi).cfg.cTx (inUse .txi).tx ∧
    (inUse .txi).cfg.cRx ≤ 65536 ∧ (inUse .txi).cfg.cTx ≤ 65536 ∧ Ready .rxavail (inUse .txi) ∧
    Ready .txavail (inUse .txi) :=
  ⟨witness_rxRing, witness_txRing, by decide, by decide, ⟨by decide, by decide, by decide, by decide⟩,
    ⟨by decide, by decide, by decide, by decide⟩⟩
theorem witness_FlushEmptiesRing : Ready .rxflush (inUse .rd) ∧ Ready .txflush (inUse .txi) :=
  ⟨⟨by decide, by decide, by decide, by decide⟩, ⟨by decide, by decide, by decide, by decide⟩⟩
theorem witness_TxpushStoresOrHolds :
    Ready (.txpush 0x41) State.reset ∧ Ready (.txpush 0x41) (inUse .fg) ∧
    ((inUse .fg).tx.head + 1) % (inUse .fg).cfg.cTx = (inUse .fg).tx.tail :=
  ⟨⟨by decide, by decide, by decide, by decide⟩, ⟨by decide, by decide, by decide, by decide⟩, by decide⟩
theorem witness_TxpopSendsOldest :
    Ready .txpop (by_ .txi State.reset) ∧
    (Ready .txpop (inUse .txi) ∧ (inUse .txi).tx.head ≠ (inUse .txi).tx.tail ∧
      Memory.read (inUse .txi).tx.buf (inUse .txi).tx.tail = some 0x00) ∧
    (Ready .txpop unwrittenTx ∧ unwrittenTx.tx.head ≠ unwrittenTx.tx.tail ∧
      Memory.read unwrittenTx.tx.buf unwrittenTx.tx.tail = none) :=
  ⟨⟨by decide, by decide, by decide, by decide⟩,
    ⟨⟨by decide, by decide, by decide, by decide⟩, by decide, by decide⟩,
    ⟨⟨by decide, by decide, by decide, by decide⟩, by decide, by decide⟩⟩
/-- A full ring, an empty one that is not at slot 0, and one between. -/
theorem witness_RingIsBoundedQueue :
    RingOk 4 (inUse .fg).tx ∧ ((inUse .fg).tx.contents 4).length = 4 - 1 ∧
    RingOk 4 (ring [(3, 9)] 0 0) ∧ (ring [(3, 9)] 0 0).contents 4 = [] ∧
    RingOk 4 (ring [(3, 9)] 0 3) ∧ (ring [(3, 9)] 0 3).contents 4 = [some 9] :=
  ⟨witness_txRing, by decide, ⟨by decide, by decide, by decide, by decide, by decide⟩, by decide,
    ⟨by decide, by decide, by decide, by decide, by decide⟩, by decide⟩
theorem witness_RingReturnsBytesInOrder :
    RingOk 4 (ring [] 3 3) ∧ (ring [] 3 3).head = (ring [] 3 3).tail ∧ [1#8, 2, 3].length ≤ 4 - 1 :=
  ⟨⟨by decide, by decide, by decide, by decide, by decide⟩, rfl, by decide⟩
theorem witness_RingDropsBeyondCapacity : RingOk 2 (ring [] 1 1) ∧ (ring [] 1 1).head = (ring [] 1 1).tail :=
  ⟨⟨by decide, by decide, by decide, by decide, by decide⟩, rfl⟩
theorem witness_TxFullLiftedByTxiOnly :
    RingOk (inUse .txi).cfg.cTx (inUse .txi).tx ∧ 2 ≤ (inUse .txi).cfg.cTx ∧
    (inUse .txi).tx.isFull (inUse .txi).cfg.cTx = true ∧ Ready .txpop (inUse .txi) ∧ Ready .txflush (inUse .txi) ∧
    ∃ t, exec .txflush (inUse .txi) = .next t ∧ t.tx.isFull t.cfg.cTx = false :=
  ⟨witness_txRing, by decide, by decide, ⟨by decide, by decide, by decide, by decide⟩,
    ⟨by decide, by decide, by decide, by decide⟩, _, rfl, by decide⟩
/-- One sample that emits and one that does not (S1, S3). -/
theorem witness_SmpaSmooths :
    State.reset.cfg.Valid ∧ Ready (.smpa (BitVec.ofNat 4 (5 : Fin 6)) 1023) State.reset ∧
    (102 : Nat) = (1023 * State.reset.cfg.w + State.reset.acc[(5 : Fin 6)].toNat * (State.reset.cfg.den - State.reset.cfg.w))
      / State.reset.cfg.den ∧
    Ready (.smpa (BitVec.ofNat 4 (0 : Fin 6)) 9) State.reset ∧
    State.reset.acc[(0 : Fin 6)].toNat =
      (9 * State.reset.cfg.w + State.reset.acc[(0 : Fin 6)].toNat * (State.reset.cfg.den - State.reset.cfg.w))
        / State.reset.cfg.den :=
  ⟨witness_valid.1, ⟨by decide, by decide, by decide, by decide⟩, by decide,
    ⟨by decide, by decide, by decide, by decide⟩, by decide⟩
theorem witness_SmoothingStaysBetween :
    ({ Config.default with w := 1000 } : Config).Valid ∧ Config.default.Valid := ⟨witness_valid.2.2, witness_valid.1⟩
theorem witness_SmoothingClosedForms :
    Config.default.Valid ∧ (0#10).toNat ≤ (1023#10).toNat ∧ (0#10).toNat < (1#10).toNat :=
  ⟨witness_valid.1, by decide, by decide⟩
theorem witness_SmoothingSettles :
    State.reset.cfg = Config.default ∧ 1023 ≤ (1023 : Nat) ∧ State.reset.acc[(5 : Fin 6)].toNat ≤ (0#10).toNat ∧
    (1022#10).toNat < ({ State.reset with acc := #v[1023, 0, 0, 0, 0, 0] } : State).acc[(0 : Fin 6)].toNat := by
  decide
theorem witness_SmpdDebounces :
    (Ready (.smpd (BitVec.ofNat 4 (9 : Fin 10)) 1) State.reset ∧ SmpdEmits 9 1 State.reset) ∧
    (Ready (.smpd (BitVec.ofNat 4 (0 : Fin 10)) 0) State.reset ∧ ¬ SmpdEmits 0 0 State.reset) := by
  unfold SmpdEmits
  exact ⟨⟨⟨by decide, by decide, by decide, by decide⟩, by decide⟩, ⟨by decide, by decide, by decide, by decide⟩, by decide⟩
theorem witness_DebounceWindow :
    1 ≤ State.reset.cfg.deb ∧ SmpdEmits 0 1 State.reset ∧
    (List.replicate 8 (0#1)).length < State.reset.cfg.deb - 1 ∧
    (List.replicate 9 (0#1)).length = State.reset.cfg.deb - 1 := by
  unfold SmpdEmits; decide
theorem witness_DeferredReport :
    ([] : List (BitVec 1)).length = State.reset.dtimer[(0 : Fin 10)] ∧
    [0#1, 1].length = ({ State.reset with dtimer := State.reset.dtimer.set 9 2 } : State).dtimer[(9 : Fin 10)] := by
  decide
theorem witness_CycendUpdatesActivity :
    Ready .cycend State.reset ∧ Ready .cycend { State.reset with cycEmit := true, actTimer := 5 } :=
  ⟨⟨by decide, by decide, by decide, by decide⟩, ⟨by decide, by decide, by decide, by decide⟩⟩
theorem witness_ActivityLastsItsCycles :
    Ready .cycend { State.reset with cycEmit := true } ∧ ({ State.reset with cycEmit := true } : State).cycEmit = true :=
  ⟨⟨by decide, by decide, by decide, by decide⟩, rfl⟩
theorem witness_ActivityLastsItsCycles_otherOp :
    Instr.smpd 0 1 ≠ .cycend ∧ ∃ t, exec (.smpd 0 1) { State.reset with actTimer := 5 } = .next t := ⟨by decide, _, rfl⟩
theorem witness_EncodersLoadStage :
    Ready (.enca (BitVec.ofNat 4 (5 : Fin 6)) 1023) State.reset ∧ Ready (.encd (BitVec.ofNat 4 (9 : Fin 10)) 1) State.reset :=
  ⟨⟨by decide, by decide, by decide, by decide⟩, ⟨by decide, by decide, by decide, by decide⟩⟩
/-- The last byte with room, and the first byte on a full ring. -/
theorem witness_StagePushesNextByte :
    (stageBusy (busy 2) = true ∧ (busy 2).encBuf[(busy 2).encPos]? = some 0x33) ∧
    (stageBusy { busy 0 with tx := ring [] 31 0 } = true ∧ (busy 0).encBuf[(busy 0).encPos]? = some 0x82 ∧
      (31 + 1) % (busy 0).cfg.cTx = 0) := by
  decide
/-- A 3-byte packet into a ring with exactly 3 slots free. -/
theorem witness_StagePushesWholePacket :
    let s : State := { busy 0 with cfg := { Config.default with cTx := 4 }, tx := ring [] 2 2 }
    RingOk s.cfg.cTx s.tx ∧ s.encPos = 0 ∧ s.encLen = (wireBytes (.analog 2 51)).length ∧
    (∀ k, k < s.encLen → s.encBuf[k]? = (wireBytes (.analog 2 51))[k]?) ∧ s.tx.occ s.cfg.cTx + s.encLen ≤ s.cfg.cTx - 1 :=
  ⟨⟨by decide, by decide, by decide, by decide, by decide⟩, by decide, by decide, by decide, by decide⟩
theorem witness_EncBusyHoldsForeground :
    WellFormed .rxavail ∧ owns .rxavail .fg = true ∧ (busy 2).issuer = .fg ∧ stageBusy (busy 2) = true := by decide
theorem witness_HeadersAloneHaveBit7 : Producible (.analog 5 1023) ∧ Producible (.digital 9 1) := by
  unfold Producible; decide
theorem witness_DecbFollowsTable :
    Ready (.decb 0x7F) (dec .awaitAnalogLow 63 127) ∧ Ready (.decb 0x80) (dec .idle 0 0) ∧
    Ready (.decb 0x01) (dec .awaitDigitalValue 9 0) ∧ Ready (.decb 0x07) (dec .awaitAnalogHigh 5 0) :=
  ⟨⟨by decide, by decide, by decide, by decide⟩, ⟨by decide, by decide, by decide, by decide⟩,
    ⟨by decide, by decide, by decide, by decide⟩, ⟨by decide, by decide, by decide, by decide⟩⟩
theorem witness_WireBytesFollowTable :
    Ready (.hdrA 63) (dec .awaitAnalogLow 3 5) ∧ Ready (.hdrD 63) (dec .idle 0 0) ∧
    Ready (.payload 127) (dec .awaitAnalogLow 63 127) :=
  ⟨⟨by decide, by decide, by decide, by decide⟩, ⟨by decide, by decide, by decide, by decide⟩,
    ⟨by decide, by decide, by decide, by decide⟩⟩
theorem witness_WholePacketGivesItsEvent :
    Ready (.pktA 63 127 127) (dec .awaitAnalogLow 3 5) ∧ Ready (.pktD 63 127) (dec .idle 0 0) :=
  ⟨⟨by decide, by decide, by decide, by decide⟩, ⟨by decide, by decide, by decide, by decide⟩⟩
theorem witness_DecnextReadsOrEndsOrHolds :
    (Ready .decnext (inUse .rd) ∧ (inUse .rd).rx.head ≠ (inUse .rd).rx.tail ∧
      Memory.read (inUse .rd).rx.buf (inUse .rd).rx.tail = some 0x83) ∧
    Ready .decnext { dec .awaitAnalogLow 3 5 with eos := true } ∧ Ready .decnext (dec .awaitAnalogLow 3 5) ∧
    (dec .awaitAnalogLow 3 5).rx.head = (dec .awaitAnalogLow 3 5).rx.tail ∧
    (Ready .decnext unwrittenRx ∧ unwrittenRx.rx.head ≠ unwrittenRx.rx.tail ∧
      Memory.read unwrittenRx.rx.buf unwrittenRx.rx.tail = none) :=
  ⟨⟨⟨by decide, by decide, by decide, by decide⟩, by decide, by decide⟩,
    ⟨by decide, by decide, by decide, by decide⟩, ⟨by decide, by decide, by decide, by decide⟩, by decide,
    ⟨⟨by decide, by decide, by decide, by decide⟩, by decide, by decide⟩⟩
theorem witness_OneLostByteOnlyRemovesEvents : (busy 1).decState = .idle := by decide
theorem witness_WrongAgentRaisesViolation :
    IsCommand .txpop ∧ WellFormed .txpop ∧ (∀ low, Instr.txpop ≠ .reservedOp0 low) ∧
    owns .txpop (busy 1).issuer = false := ⟨⟨_, rfl⟩, by decide, fun _ h => (by cases h), by decide⟩
/-- Each wire row, issued by FG. -/
theorem witness_WrongAgentOnWireRow :
    (IsWireRow (.hdrA 63) ∧ IsWireRow (.hdrD 63) ∧ IsWireRow (.payload 127) ∧ IsWireRow (.pktA 63 127 127) ∧
      IsWireRow (.pktD 63 127)) ∧ (busy 1).issuer ≠ .rd :=
  ⟨⟨⟨_, rfl⟩, ⟨_, rfl⟩, ⟨_, rfl⟩, ⟨_, rfl⟩, ⟨_, rfl⟩⟩, by decide⟩
theorem witness_ReaderAfterEndIsRefused :
    WellFormed .txavail ∧ owns .txavail .rd = true ∧ (dec .idle 0 0).issuer = .rd ∧
    ({ dec .idle 0 0 with rdDone := true } : State).rdDone = true := by decide
theorem witness_IllegalInstrIsRefusedFirst :
    (Instr.enca 6 0).wellFormed = false ∧ (Instr.smpd 10 1).wellFormed = false ∧
    ∃ low, Instr.reservedOp0 0xFFFFF = .reservedOp0 low := ⟨by decide, by decide, _, rfl⟩
theorem witness_RaisedOperationIsConsumed :
    WellFormed .txpop ∧ (∀ low, Instr.txpop ≠ .reservedOp0 low) ∧ owns .txpop (busy 1).issuer = false ∧
    ({ busy 1 with faultLatch := some (.ownershipViolation .rxpop .fg) } : State).faultLatch =
      some (.ownershipViolation .rxpop .fg) := ⟨by decide, fun _ h => (by cases h), by decide, rfl⟩
/-- After a reset; raw 10 meets the threshold, raw 9 does not. -/
theorem witness_FirstSamplesAfterReset :
    (resetBlock true (busy 1)).cfg.Valid ∧ (resetBlock true (busy 1)).rep[(9 : Fin 10)] = 0 ∧
    (resetBlock true (busy 1)).dtimer[(9 : Fin 10)] = 0 ∧ (resetBlock true (busy 1)).acc[(5 : Fin 6)] = 0 ∧
    Config.default.den ≤ (10#10).toNat * Config.default.w ∧ ¬ Config.default.den ≤ (9#10).toNat * Config.default.w :=
  ⟨witness_valid.1, by decide, by decide, by decide, by decide, by decide⟩
/-- An issued code with the stage busy, and a scheduled one with it empty. -/
theorem witness_StepRunsDecodedInstr :
    let s1 : State := { busy 1 with streams := ⟨[.code (.command 0x700000)], [], [], []⟩, schedule := [.issue .fg] }
    let s2 : State := { State.reset with streams := ⟨[.code (.command 0x700000)], [], [], []⟩, schedule := [.run .fg] }
    (s1.streams.get .fg = [.code (.command 0x700000)] ∧ s1.pending.get .fg = none ∧ s1.schedule = [.issue .fg]) ∧
    (s2.streams.get .fg = [.code (.command 0x700000)] ∧ s2.pending.get .fg = none ∧ s2.schedule = [.run .fg] ∧
      stageBusy s2 = false) ∧ decode (.command 0x700000) = .ok .txavail := by decide
/-- A held code issued while the stage is busy and scheduled while it is empty; port samples tried again in both cases; a held stage push; and a wrong agent's held sample. -/
theorem witness_HeldOperationIsRetried :
    let code : Pending := ⟨.item (.code (.command 0x700000)), .encBusy⟩
    let smpA : Pending := ⟨.item (.sampleA 5), .encBusy⟩
    let smpD : Pending := ⟨.item (.sampleD 9), .encBusy⟩
    let at_ : State → Pending → Move → State := fun s p m =>
      { s with pending := ⟨some p, none, none, some p⟩, schedule := [m] }
    let meets : Agent → State → Pending → Bool := fun a s p => s.pending.get a = some p ∧
      (s.schedule = [.issue a] ∨ s.schedule = [.run a] ∧ (a = .fg → stageBusy s = false))
    decode (.command 0x700000) = .ok .txavail ∧ stageBusy (busy 1) = true ∧ stageBusy State.reset = false ∧
    meets .fg (at_ (busy 1) code (.issue .fg)) code ∧ meets .fg (at_ State.reset code (.run .fg)) code ∧
    meets .fg (at_ (busy 1) smpA (.issue .fg)) smpA ∧ meets .fg (at_ State.reset smpA (.run .fg)) smpA ∧
    meets .fg (at_ (busy 1) smpD (.issue .fg)) smpD ∧ meets .fg (at_ State.reset smpD (.run .fg)) smpD ∧
    meets .rd (at_ (busy 1) smpD (.run .rd)) smpD ∧ meets .fg (at_ (busy 1) ⟨.stage, .txFull⟩ (.issue .fg)) ⟨.stage, .txFull⟩ := by
  decide

/-- A state away from reset that meets the invariant, with the stage's push as its next step. -/
def running : State := { inUse .fg with
  dtimer := State.reset.dtimer.set 3 10, actTimer := 5, encBuf := #v[0x82, 0x00, 0x33], encLen := 3, encPos := 1
  decState := .awaitAnalogHigh, decCh := 3, faultLatch := some (.ownershipViolation .txpop .fg)
  refusalLatch := some .afterEnd, schedule := [.run .fg] }

theorem witness_BlockInv : BlockInv running :=
  ⟨witness_valid.2.1, witness_rxRing, witness_txRing, by decide, by decide, by decide, by decide⟩
theorem witness_StepKeepsInv : BlockInv running ∧ ∃ t, step running = .next t := ⟨witness_BlockInv, _, rfl⟩
theorem witness_NoStepFaults : BlockInv running := witness_BlockInv
theorem witness_StepKeepsDecoderClean : DecoderClean running ∧ ∃ t, step running = .next t :=
  ⟨show (0 : BitVec 7) = 0 from rfl, _, rfl⟩
theorem witness_LatchesHistoryConfigKept :
    (∃ t, step running = .next t) ∧ running.faultLatch = some (.ownershipViolation .txpop .fg) ∧
    running.refusalLatch = some .afterEnd := ⟨⟨_, rfl⟩, rfl, rfl⟩
/-- Each kind of write happens. -/
theorem witness_StateHasItsWritersOnly :
    onNext (exec (.rxpush 7) (by_ .rxi State.reset)) (fun t => t.rx.buf ≠ [] ∧ t.rx.head ≠ 0) = true ∧
    onNext (exec .rxpop (inUse .rd)) (fun t => t.rx.tail ≠ (inUse .rd).rx.tail) = true ∧
    onNext (exec (.txpush 7) State.reset) (fun t => t.tx.buf ≠ [] ∧ t.tx.head ≠ 0) = true ∧
    onNext (exec .txflush (inUse .txi)) (fun t => t.tx.tail ≠ (inUse .txi).tx.tail) = true ∧
    onNext (exec (.smpa 0 512) State.reset) (fun t => t.rawLatest ≠ State.reset.rawLatest ∧ t.acc ≠ State.reset.acc ∧
      t.cycEmit ≠ false ∧ t.encBuf ≠ State.reset.encBuf ∧ t.encLen ≠ 0) = true ∧
    onNext (exec (.smpd 0 1) State.reset) (fun t => t.rep ≠ State.reset.rep ∧ t.dtimer ≠ State.reset.dtimer) = true ∧
    onNext (exec .cycend { State.reset with actTimer := 5 }) (fun t => t.actTimer ≠ 5) = true ∧
    onNext (exec (.decb 0x83) (dec .idle 0 0)) (fun t => t.decState ≠ .idle ∧ t.decCh ≠ 0) = true ∧
    onNext (exec .decnext { dec .idle 0 0 with eos := true }) (fun t => t.rdDone ≠ false) = true := by decide
theorem witness_OperationsLeaveEnvironment :
    (∃ t, exec .rxpop (inUse .rd) = .next t) ∧ Instr.rxpop ≠ .txpop := ⟨⟨_, rfl⟩, by decide⟩
theorem witness_PortSamplesReadInputsNow :
    let s : State := { State.reset with schedule := [.run .fg] }
    s.pending.fg = none ∧ stageBusy s = false ∧ s.schedule = [.run .fg] ∧
    ({ s with streams := ⟨[.sampleA 5], [], [], []⟩ } : State).streams.fg = [.sampleA 5] ∧
    ({ s with streams := ⟨[.sampleD 9], [], [], []⟩ } : State).streams.fg = [.sampleD 9] := by decide
/-- FG has a TXPUSH to issue and TXI a TXPOP, with the TX ring full. -/
def waiting : State :=
  { inUse .fg with streams := ⟨[.code (.command 0x500041)], [.code (.command 0x600000)], [], []⟩ }

/-- The state after a move, or the same state where it answers none. -/
def after (m : Move) (s : State) : State :=
  match runMove m s with
  | .next t => t
  | .fault _ | .refused _ => s

/-- TXI's pop, FG's push, then turns of an FG with nothing to do. -/
def fairMove : Nat → Move
  | 0 => .run .txi
  | _ + 1 => .run .fg

/-- The states of those moves from `waiting`. -/
def fairState : Nat → State
  | 0 => waiting
  | 1 => after (.run .txi) waiting
  | _ + 2 => after (.run .fg) (after (.run .txi) waiting)

/-- The run they make. -/
def fairRun : Run := ⟨fairState, fairMove, fun
  | 0 => rfl
  | 1 => rfl
  | _ + 2 => rfl⟩

/-- The stage busy; a TXPUSH of FG's stream and a held port sample with the stage empty; agents that are not enabled: FG on a full ring, RD after end of stream. -/
theorem witness_EnabledAgentPerforms :
    stageBusy (busy 1) = true ∧
    Enabled .fg { State.reset with streams := ⟨[.code (.command 0x500041)], [], [], []⟩ } ∧
    Enabled .fg { State.reset with pending := ⟨some ⟨.item (.sampleA 5), .encBusy⟩, none, none, none⟩ } ∧
    (¬ Enabled .fg waiting ∧ ∃ t, runMove (.run .fg) waiting = .next t) ∧
    ({ dec .idle 0 0 with rdDone := true, streams := ⟨[], [], [], [.code (.command 0xF00000)]⟩ } : State).rdDone = true :=
  ⟨by decide, .inr ⟨_, _, .txpush 0x41, rfl, rfl, ⟨by decide, by decide, by decide, by decide⟩, _, rfl, by decide⟩,
    .inr ⟨_, _, .smpa 5 0, rfl, rfl, ⟨by decide, by decide, by decide, by decide⟩, _, rfl, by decide⟩,
    ⟨fun h => by
      rcases h with ⟨_, h, _⟩ | ⟨_, _, _, h, h', _, _, e, hn⟩
      · exact absurd h (by decide)
      · cases h; cases h'; cases e; exact absurd hn (by decide), _, rfl⟩, rfl⟩

/-- A fair run: FG's TXPUSH stands before a full ring without an attempt, TXI pops, FG pushes, and then nobody has an operation. -/
theorem witness_FairRunLiftsTxFull :
    ∃ r : Run, Fair r ∧ 2 ≤ (r.state 0).cfg.cTx ∧ HoldsTxFull (r.state 0) ∧ PushIsNext (r.state 1) := by
  have quiet : ∀ k ≥ 2, fairState k = fairState 2 := by
    intro k hk
    match k, hk with
    | k + 2, _ => rfl
  have idle : ∀ a, ¬ Enabled a (fairState 2) := by
    intro a h
    rcases h with ⟨_, h, _⟩ | ⟨_, _, _, h, _⟩
    · exact absurd h (by decide)
    · cases a <;> cases h
  refine ⟨fairRun, ⟨fun a h => ?_, fun ⟨n, h⟩ => ?_⟩, by decide,
    ⟨by decide, .inr ⟨_, _, 0x41, rfl, rfl⟩⟩, .inr ⟨_, _, 0x41, rfl, rfl⟩⟩
  · obtain ⟨k, hk, e⟩ := h 2
    rw [show fairRun.state k = fairState 2 from quiet k hk] at e
    exact (idle a e).elim
  · have e := (h (n + 2) (by omega)).2
    rw [show fairRun.state (n + 2) = fairState 2 from quiet (n + 2) (by omega)] at e
    rcases e with e | ⟨_, _, _, e, _⟩
    · exact absurd e (by decide)
    · cases e

theorem witness_LoopbackOffersWireBytes :
    let c : Config := { Config.default with wireModel := .loopback }
    ({ State.reset with cfg := c, wire := [0x82] } : State).cfg.wireModel = .loopback ∧
    ({ State.reset with cfg := c, wire := [0x82] } : State).wire = [0x82] ∧
    ({ State.reset with cfg := c } : State).wire = [] := by decide
theorem witness_FreeAndLossyOffers :
    let c : Config := { Config.default with wireModel := .lossyLoopback }
    State.reset.cfg.wireModel = .free ∧ ({ State.reset with cfg := c, wire := [0x82] } : State).cfg.wireModel = .lossyLoopback ∧
    ({ State.reset with cfg := c, wire := [0x82] } : State).wire = [0x82] ∧
    ({ State.reset with cfg := c } : State).wire = [] := by decide

end Sys2Proof.Machine.Tests
end

section
/-! PROOF. Which operation an agent's move runs, and what the move does when that operation is not performed. -/

namespace Sys2Proof.Machine

/-! ## What an agent's move runs -/

/-- A push with the stage empty is no step (R224). -/
theorem stagePush_of_stage_empty {s : State} (h : stageBusy s = false) : stagePush s = s := if_pos h

/-- A scheduled agent issues unless FG's stage push comes first (R224). -/
theorem agentTurn_of_stage_empty {a : Agent} {s : State} (h : a = .fg → stageBusy s = false) :
    agentTurn a s = agentIssue a s :=
  if_neg fun ⟨hfg, hbusy⟩ => by simp [h hfg] at hbusy

/-- With an agent's move next and no stage push before it, the step is that agent's issue. -/
theorem step_eq_agentIssue {s : State} {a : Agent} {moves : List Move}
    (h : s.schedule = .issue a :: moves ∨ s.schedule = .run a :: moves ∧ (a = .fg → stageBusy s = false)) :
    step s = agentIssue a { s with schedule := moves } := by
  rcases h with h | ⟨h, hstage⟩
  · simp only [step, turn, h, runMove]
  · simp only [step, turn, h, runMove]
    exact agentTurn_of_stage_empty hstage

/-- A held operation is presented again, and the stream waits. -/
theorem presented_of_held {a : Agent} {s : State} {it : Item} {why : HoldReason}
    (h : s.pending.get a = some ⟨.item it, why⟩) : presented a s = some (it, s) := by
  simp only [presented, h]

/-- With nothing held the head of the stream is presented and taken from it. -/
theorem presented_of_stream {a : Agent} {s : State} {it : Item} {rest : List Item}
    (hp : s.pending.get a = none) (hs : s.streams.get a = it :: rest) :
    presented a s = some (it, { s with streams := s.streams.set a rest }) := by
  simp only [presented, hp, hs]

/-- Presenting touches no field but the streams. -/
theorem presented_frame {a : Agent} {s s' : State} {it : Item} (h : presented a s = some (it, s')) :
    ∃ st, s' = { s with streams := st } := by
  unfold presented at h
  split at h
  · cases h; exact ⟨s.streams, rfl⟩
  · cases h
  · split at h <;> cases h
    exact ⟨_, rfl⟩

/-- An agent whose slot holds a stage push tries it, and only FG has one (R224, log 6). -/
theorem agentIssue_of_held_stage {a : Agent} {s : State} {why : HoldReason}
    (h : s.pending.get a = some ⟨.stage, why⟩) :
    agentIssue a s = if a = .fg then .next (stagePush s) else .next s := by
  simp only [agentIssue, h]

/-- With the stage empty, an agent that presents nothing changes nothing (R293). -/
theorem agentIssue_of_presented_none {a : Agent} {s : State} (hstage : a = .fg → stageBusy s = false)
    (h : presented a s = none) : agentIssue a s = .next s := by
  cases hp : s.pending.get a with
  | some p =>
    obtain ⟨op, why⟩ := p
    cases op with
    | stage =>
      rw [agentIssue_of_held_stage hp]
      split
      case isTrue hfg => rw [stagePush_of_stage_empty (hstage hfg)]
      case isFalse => rfl
    | item it => simp only [presented, hp] at h; cases h
  | none =>
    cases hs : s.streams.get a with
    | nil => simp only [agentIssue, hp, hs]
    | cons it rest => simp only [presented, hp, hs] at h; cases h

/-- A code that decodes to i is attempted by running i. -/
theorem attempt_code {a : Agent} {c : Code} {i : Instr} (s : State) (h : decode c = .ok i) :
    attempt a (.code c) s = exec i { s with issuer := a } := by
  simp only [attempt, runCode, h]

/-- A performed operation's effect is on the port it was presented on. -/
theorem Effect.issuer_eq {s u : State} {i : Instr} (h : Effect s i u) : u.issuer = s.issuer := by
  obtain ⟨_, _, hissuer, _, _⟩ := h.frame
  exact hissuer

/-! ## A port sample, held or performed -/

/-- FG's legal operation is held while the stage is busy (R225). -/
theorem guarded_of_stage_busy {i : Instr} {s : State} {body : State → Host.Outcome State Fault Refusal}
    (hw : WellFormed i) (ho : owns i .fg = true) (hfg : s.issuer = .fg) (hbusy : stageBusy s = true) :
    guarded i s body = .next (hold i .encBusy s) := by
  have hlegal : i.wellFormed = true := hw
  simp [guarded, hlegal, hfg, ho, hbusy]

/-- An operation whose body always completes leaves nothing pending unless the busy stage holds it. -/
theorem guarded_complete_clears {i : Instr} {w : CmdWord} {f : State → State} {s t : State}
    (hf : (f s).issuer = s.issuer) (hfree : ¬ (s.issuer = .fg ∧ stageBusy s = true))
    (h : guarded i s (fun s => .next (complete w (f s))) = .next t) : t.pending.get s.issuer = none := by
  rcases guarded_cases i s (fun s => .next (complete w (f s))) with
    ⟨_, e⟩ | ⟨_, _, e⟩ | ⟨_, _, _, _, e⟩ | ⟨_, _, hfg, hbusy, _⟩ | ⟨_, _, _, _, e⟩
  case inr.inr.inr.inl => exact (hfree ⟨hfg, hbusy⟩).elim
  all_goals
    rw [e] at h
    cases h
    simp [hf]

/-- An item whose agent has nothing pending afterwards leaves no mark in its slot. -/
theorem keepIssuedIn_of_cleared {a : Agent} {it : Item} {o : Host.Outcome State Fault Refusal}
    (h : ∀ t, o = .next t → t.pending.get a = none) : keepIssuedIn a it o = o := by
  cases o with
  | next t => simp only [keepIssuedIn, keepIssued, h t rfl]
  | fault r => rfl
  | refused r => rfl

/-- Where an operation was held, the slot keeps the item as issued. -/
theorem keepIssued_hold (it : Item) (i : Instr) (why : HoldReason) (s : State) :
    keepIssued s.issuer it (hold i why s) =
      { s with pending := s.pending.set s.issuer (some ⟨.item it, why⟩) } := by
  simp only [keepIssued, hold_pending, PerAgent.get_set_same]
  cases e : s.issuer <;> simp [hold, e, PerAgent.set]

/-- An attempted FG operation whose body always completes stays held as the item while the stage is busy, and any other
time is just run (R127, R225). -/
theorem keepIssuedIn_guarded_complete {i : Instr} {w : CmdWord} {f : State → State} {s : State} (it : Item)
    (hw : WellFormed i) (ho : owns i .fg = true) (hf : (f s).issuer = s.issuer) :
    keepIssuedIn s.issuer it (guarded i s fun s => .next (complete w (f s))) =
      if s.issuer = .fg ∧ stageBusy s = true then
        .next { s with pending := s.pending.set s.issuer (some ⟨.item it, .encBusy⟩) }
      else guarded i s fun s => .next (complete w (f s)) := by
  split
  case isTrue hbusy =>
    rw [guarded_of_stage_busy hw ho hbusy.1 hbusy.2]
    exact congrArg _ (keepIssued_hold it i .encBusy s)
  case isFalse hfree => exact keepIssuedIn_of_cleared fun t => guarded_complete_clears hf hfree

/-- A port sample reads an analog channel the block has (R118). -/
theorem wellFormed_sampleAInstr (ch : Fin 6) (s : State) : WellFormed (sampleAInstr ch s) := by
  have hch : (BitVec.ofNat 4 ch).toNat ≤ 5 := by rw [BitVec.toNat_ofNat]; omega
  exact decide_eq_true hch

/-- A port sample reads a digital channel the block has (R118). -/
theorem wellFormed_sampleDInstr (ch : Fin 10) (s : State) : WellFormed (sampleDInstr ch s) := by
  have hch : (BitVec.ofNat 4 ch).toNat ≤ 9 := by rw [BitVec.toNat_ofNat]; omega
  exact decide_eq_true hch

/-- FG's analog sample stays held as a port sample while the stage is busy; else it is the SMPA of what `ain` shows (log 18). -/
theorem attempt_sampleA (a : Agent) (ch : Fin 6) (s : State) :
    attempt a (.sampleA ch) s =
      if a = .fg ∧ stageBusy s = true then
        .next { s with issuer := a, pending := s.pending.set a (some ⟨.item (.sampleA ch), .encBusy⟩) }
      else exec (sampleAInstr ch s) { s with issuer := a } :=
  keepIssuedIn_guarded_complete (s := { s with issuer := a }) (.sampleA ch) (wellFormed_sampleAInstr ch s) rfl
    (Effect.smpa _ _).issuer_eq

/-- FG's digital sample stays held as a port sample while the stage is busy; else it is the SMPD of what `din` shows (log 18). -/
theorem attempt_sampleD (a : Agent) (ch : Fin 10) (s : State) :
    attempt a (.sampleD ch) s =
      if a = .fg ∧ stageBusy s = true then
        .next { s with issuer := a, pending := s.pending.set a (some ⟨.item (.sampleD ch), .encBusy⟩) }
      else exec (sampleDInstr ch s) { s with issuer := a } :=
  keepIssuedIn_guarded_complete (s := { s with issuer := a }) (.sampleD ch) (wellFormed_sampleDInstr ch s) rfl
    (Effect.smpd _ _).issuer_eq

/-! ## Operations that are not performed -/

/-- t is s but for the latches, the pending slots, the issuer and the streams: no register, ring, result or history
entry was written. -/
def NothingPerformed (s t : State) : Prop :=
  t = { s with faultLatch := t.faultLatch, refusalLatch := t.refusalLatch, pending := t.pending,
               issuer := t.issuer, streams := t.streams }

theorem NothingPerformed.trans {s u t : State} (h₁ : NothingPerformed s u) (h₂ : NothingPerformed u t) :
    NothingPerformed s t := by
  unfold NothingPerformed at *
  rw [h₂, h₁]

/-- Which item stays pending is written in the slots alone. -/
theorem keepIssued_nothingPerformed (a : Agent) (it : Item) (s : State) :
    NothingPerformed s (keepIssued a it s) := by
  obtain ⟨p, e⟩ := keepIssued_eq a it s
  rw [e]; rfl

/-- An operation that is not performable is refused, raised or held (R18). -/
theorem exec_not_performable {i : Instr} {s t : State} (hn : ¬ Performable i s) (h : exec i s = .next t) :
    NothingPerformed s t := by
  cases exec_next h with
  | refused why stop => rfl
  | raised v stop => rfl
  | held why => rfl
  | performed w u ready effect =>
    have hclear : (complete w u).pending.get s.issuer = none := by simp [effect.issuer_eq]
    exact (hn ⟨ready, _, h, hclear⟩).elim

/-- Attempting an item that is no performable operation performs nothing. -/
theorem attempt_not_performable {a : Agent} {it : Item} {s t : State}
    (hn : ∀ i, itemInstr it s = some i → ¬ Performable i { s with issuer := a })
    (h : attempt a it s = .next t) : NothingPerformed s t := by
  have hissuer : NothingPerformed s { s with issuer := a } := rfl
  have hsample : ∀ i, ¬ Performable i { s with issuer := a } →
      keepIssuedIn a it (exec i { s with issuer := a }) = .next t → NothingPerformed s t := by
    intro i hi e
    cases hu : exec i { s with issuer := a } with
    | next u =>
      rw [hu] at e; cases e
      exact (hissuer.trans (exec_not_performable hi hu)).trans (keepIssued_nothingPerformed a it u)
    | fault r => rw [hu] at e; cases e
    | refused r => rw [hu] at e; cases e
  cases it with
  | code c =>
    cases hd : decode c with
    | ok i =>
      rw [attempt_code s hd] at h
      exact hissuer.trans (exec_not_performable (hn i (by simp only [itemInstr, hd])) h)
    | error r =>
      cases c with
      | command w => simp only [attempt, runCode, hd] at h; cases h; rfl
      | wire bs => simp only [attempt, runCode, hd] at h; cases h
  | sampleA ch => exact hsample _ (hn _ rfl) h
  | sampleD ch => exact hsample _ (hn _ rfl) h

/-- Scheduling an agent that is not enabled performs nothing. -/
theorem agentTurn_not_enabled {a : Agent} {s t : State} (hn : ¬ Enabled a s) (h : agentTurn a s = .next t) :
    NothingPerformed s t := by
  by_cases hb : a = .fg ∧ stageBusy s = true
  · rw [agentTurn, if_pos hb] at h
    cases h
    rcases stagePush_cases s with ⟨_, e⟩ | ⟨_, _, e⟩ | ⟨_, hroom, _⟩
    · rw [e]; rfl
    · rw [e]; rfl
    · exact (hn (.inl ⟨hb.1, hb.2, hroom⟩)).elim
  · have hstage : a = .fg → stageBusy s = false := fun hfg => by simpa [hfg] using hb
    rw [agentTurn_of_stage_empty hstage] at h
    cases hp : presented a s with
    | none => rw [agentIssue_of_presented_none hstage hp] at h; cases h; rfl
    | some q =>
      obtain ⟨it, s'⟩ := q
      rw [agentIssue_presented hp] at h
      have htake : NothingPerformed s s' := by obtain ⟨st, rfl⟩ := presented_frame hp; rfl
      exact htake.trans (attempt_not_performable (fun i hi hperf => hn (.inr ⟨it, s', i, hp, hi, hperf⟩)) h)

/-- A performable operation completes on its issuer's port and leaves both latches. -/
theorem Performable.completes {i : Instr} {s : State} (h : Performable i s) :
    ∃ t w, exec i s = .next t ∧ PortDone s t w ∧ t.faultLatch = s.faultLatch ∧ t.refusalLatch = s.refusalLatch := by
  obtain ⟨w, u, e, effect⟩ := h.performs
  obtain ⟨hfault, hrefusal, hissuer, hresult, hpending⟩ := effect.frame
  exact ⟨_, w, e, portDone_complete w hissuer hresult hpending, hfault, hrefusal⟩

/-- A scheduled agent runs the performable operation it presents: FG's stage push does not come first, since the
operation would be held then. -/
theorem agentTurn_performable {a : Agent} {s s' : State} {it : Item} {i : Instr}
    (hp : presented a s = some (it, s')) (hi : itemInstr it s' = some i)
    (hperf : Performable i { s' with issuer := a }) : agentTurn a s = exec i { s' with issuer := a } := by
  have hstage : a = .fg → stageBusy s = false := by
    obtain ⟨st, rfl⟩ := presented_frame hp
    exact hperf.1.stage
  rw [agentTurn_of_stage_empty hstage, agentIssue_presented hp, attempt_performable hi hperf]

/-- After end of stream RD's operations are refused, so none is enabled (R55). -/
theorem not_enabled_of_rdDone {s : State} (h : s.rdDone = true) : ¬ Enabled .rd s := by
  rintro (⟨hfg, _⟩ | ⟨it, s', i, hp, _, hperf⟩)
  · cases hfg
  · obtain ⟨st, rfl⟩ := presented_frame hp
    have hopen : s.rdDone = false := hperf.1.reader rfl
    simp [h] at hopen

/-! ## The obligations -/

/-- Settles O58: a performable operation passes check (4), so the stage push is not before it, and what is not enabled is
refused, raised, held or no operation. -/
theorem enabledAgentPerforms : Obligations.EnabledAgentPerforms := by
  intro a s
  refine ⟨fun hfg hbusy => if_pos ⟨hfg, hbusy⟩, fun it s' i hp hi hperf => ?_,
    fun hn t h => agentTurn_not_enabled hn h, not_enabled_of_rdDone⟩
  obtain ⟨st, rfl⟩ := presented_frame hp
  exact ⟨agentTurn_performable hp hi hperf, hperf.completes⟩

/-- Settles O45: the step is the agent's issue, which presents the head of its stream. -/
theorem stepRunsDecodedInstr : Obligations.StepRunsDecodedInstr := by
  intro s a c i rest moves hs hp hd hm
  have hpres : presented a { s with schedule := moves } =
      some (.code c, { s with schedule := moves, streams := s.streams.set a rest }) := presented_of_stream hp hs
  rw [step_eq_agentIssue hm, agentIssue_presented hpres, attempt_code _ hd]

/-- Settles O46: the step is the agent's issue, which presents what its slot holds. -/
theorem heldOperationIsRetried : Obligations.HeldOperationIsRetried := by
  intro s a op why moves hp hm
  have hitem : ∀ it, op = .item it → step s = attempt a it { s with schedule := moves } := by
    rintro it rfl
    rw [step_eq_agentIssue hm]
    exact agentIssue_presented (presented_of_held hp)
  refine ⟨?_, ?_, ?_, ?_⟩
  · intro c i hop hd
    rw [hitem _ hop, attempt_code _ hd]
  · rintro ch rfl
    exact (apply_ite (step s = ·) _ _ _).mp ((hitem _ rfl).trans (attempt_sampleA a ch _))
  · rintro ch rfl
    exact (apply_ite (step s = ·) _ _ _).mp ((hitem _ rfl).trans (attempt_sampleD a ch _))
  · rintro rfl
    rw [step_eq_agentIssue hm]
    exact agentIssue_of_held_stage hp

end Sys2Proof.Machine
end

section
/-! PROOF. The state of the block: its rings as queues, the invariant every step keeps, which operation writes which
piece of state, and what reset and the checks leave alone (spec/10_state.md). -/

namespace Sys2Proof.Machine

/-! ## A ring in order as a queue -/

@[simp] theorem Ring.length_contents (C : Nat) (r : Ring) : (r.contents C).length = r.occ C := by
  simp [Ring.contents]

theorem Ring.push_of_full {C : Nat} {r : Ring} (b : Byte) (h : r.isFull C = true) : r.push C b = (false, r) := if_pos h

theorem Ring.push_of_room {C : Nat} {r : Ring} (b : Byte) (h : r.isFull C = false) :
    r.push C b = (true, r.put C b) := by
  simp [Ring.push, h]

@[simp] theorem Ring.contents_flush (C : Nat) (r : Ring) : r.flush.contents C = [] := by
  simp [Ring.contents, Ring.occ]

section RingInOrder

variable {C : Nat} {r : Ring}

theorem RingOk.occ_lt (h : RingOk C r) : r.occ C < C := Nat.mod_lt _ (Nat.zero_lt_of_lt h.head_lt)

theorem RingOk.occ_eq_zero_iff (h : RingOk C r) : r.occ C = 0 ↔ r.head = r.tail := by
  have hhead := h.head_lt
  have htail := h.tail_lt
  rw [Ring.occ_eq hhead htail]
  split <;> omega

/-- The unread slots end at head. -/
theorem RingOk.tail_add_occ (h : RingOk C r) : (r.tail + r.occ C) % C = r.head := by
  have htail := h.tail_lt
  rw [Ring.occ, Nat.add_mod_mod, show r.tail + (r.head + C - r.tail) = r.head + C by omega, Nat.add_mod_right,
    Nat.mod_eq_of_lt h.head_lt]

/-- No unread byte stands in slot head. -/
theorem RingOk.unread_ne_head (h : RingOk C r) {k : Nat} (hk : k < r.occ C) : (r.tail + k) % C ≠ r.head := by
  intro e
  have hsame : r.tail + k ≡ r.tail + r.occ C [MOD C] := e.trans h.tail_add_occ.symm
  exact hk.ne (hsame.add_left_cancel'.eq_of_lt_of_lt (hk.trans h.occ_lt) h.occ_lt)

/-- An accepted push appends its byte (R141). -/
theorem RingOk.contents_put (h : RingOk C r) (b : Byte) (hroom : r.isFull C = false) :
    (r.put C b).contents C = r.contents C ++ [some b] := by
  have hold : ∀ k ∈ List.range (r.occ C),
      Memory.read (r.put C b).buf ((r.tail + k) % C) = Memory.read r.buf ((r.tail + k) % C) := fun k hk =>
    Memory.read_write_other _ _ (h.unread_ne_head (List.mem_range.mp hk))
  have hnew : Memory.read (r.put C b).buf ((r.tail + r.occ C) % C) = some b := by
    rw [h.tail_add_occ]; exact Memory.read_write_same _ _ _
  simp only [Ring.contents, Ring.occ_put b h.head_lt h.tail_lt hroom, List.range_succ, List.map_append,
    List.map_singleton, Ring.put_tail, hnew, List.map_congr_left hold]

/-- The byte of slot tail is the oldest unread one, the others stay (R143). -/
theorem RingOk.contents_of_ne (h : RingOk C r) (hne : r.head ≠ r.tail) :
    r.contents C = Memory.read r.buf r.tail :: Ring.contents C { r with tail := (r.tail + 1) % C } := by
  have hslot : ∀ k, (r.tail + (k + 1)) % C = ((r.tail + 1) % C + k) % C := fun k => by
    rw [Nat.mod_add_mod, Nat.add_right_comm, Nat.add_assoc]
  simp only [Ring.contents, ← Ring.occ_tail h.head_lt h.tail_lt hne, List.range_succ_eq_map, List.map_cons,
    List.map_map, Nat.add_zero, Nat.mod_eq_of_lt h.tail_lt]
  exact congrArg _ (List.map_congr_left fun k _ => congrArg _ (hslot k))

theorem RingOk.contents_eq_nil_iff (h : RingOk C r) : r.contents C = [] ↔ r.head = r.tail := by
  rw [← List.length_eq_zero_iff, Ring.length_contents, h.occ_eq_zero_iff]

/-- In a ring in order a pop finds Empty or a byte, never a slot nothing wrote (R52). -/
theorem RingOk.pop_cases (h : RingOk C r) :
    (r.head = r.tail ∧ r.pop C = .empty) ∨
    (r.head ≠ r.tail ∧ ∃ b, Memory.read r.buf r.tail = some b ∧
      r.pop C = .byte b { r with tail := (r.tail + 1) % C }) := by
  rcases Ring.pop_cases C r with hempty | hbyte | ⟨hne, hnone, _⟩
  · exact .inl hempty
  · exact .inr hbyte
  · obtain ⟨b, hb⟩ := h.pop_written hne
    simp [hnone] at hb

/-- A ring in order pops the front of its queue. -/
theorem RingOk.pop_front (h : RingOk C r) {x : Option Byte} {q : List (Option Byte)} (hq : r.contents C = x :: q) :
    ∃ b r', x = some b ∧ r.pop C = .byte b r' ∧ RingOk C r' ∧ r'.contents C = q := by
  rcases h.pop_cases with ⟨he, _⟩ | ⟨hne, b, hb, hpop⟩
  · simp [h.contents_eq_nil_iff.mpr he] at hq
  · rw [h.contents_of_ne hne, hb] at hq
    obtain ⟨rfl, rfl⟩ := List.cons.inj hq
    exact ⟨b, _, rfl, hpop, h.popped hne, rfl⟩

end RingInOrder

/-- Settles O12: the unread bytes are those of the slots from tail to head, so a push puts its byte behind them and a pop
takes the first. -/
theorem ringIsBoundedQueue : Obligations.RingIsBoundedQueue := by
  intro C r h
  refine ⟨?_, (Ring.length_contents C r).symm, fun b => ?_, fun hq => ?_, fun x q => h.pop_front, h.flushed,
    Ring.contents_flush C r⟩
  · have hocc := h.occ_lt
    rw [Ring.length_contents]
    omega
  · rw [Ring.length_contents]
    split
    case isTrue hlen => exact Ring.push_of_full b ((Ring.isFull_iff_occ h.head_lt h.tail_lt).mpr hlen)
    case isFalse hlen =>
      have hroom : r.isFull C = false :=
        Bool.eq_false_iff.mpr fun hfull => hlen ((Ring.isFull_iff_occ h.head_lt h.tail_lt).mp hfull)
      exact ⟨_, Ring.push_of_room b hroom, h.put b hroom, h.contents_put b hroom⟩
  · simp [Ring.pop, Ring.isEmpty, h.contents_eq_nil_iff.mp hq]

/-! ## What the sampler and the decoder append to the history -/

/-- A smoothing step writes raw_latest alone or emits (R183). -/
theorem smoothStep_cases (k : Fin 6) (raw : BitVec 10) (s : State) :
    smoothStep k raw s = { s with rawLatest := s.rawLatest.set k raw } ∨
    ∃ e acc, smoothStep k raw s = emitSample e { s with rawLatest := s.rawLatest.set k raw, acc := acc } := by
  unfold smoothStep
  simp only
  split
  · exact .inl rfl
  · exact .inr ⟨_, _, rfl⟩

/-- A debounce step counts the timer down, or reloads it and emits (R185, R186). -/
theorem debounceStep_cases (k : Fin 10) (raw : BitVec 1) (s : State) :
    debounceStep k raw s = { s with dtimer := s.dtimer.set k (satDec s.dtimer[k]) } ∨
    ∃ e rep, debounceStep k raw s =
      emitSample e { s with rep := rep, dtimer := s.dtimer.set k (satDec s.cfg.deb) } := by
  unfold debounceStep
  split
  · exact .inr ⟨_, _, rfl⟩
  · exact .inl rfl

theorem smoothStep_history (k : Fin 6) (raw : BitVec 10) (s : State) :
    s.history <+: (smoothStep k raw s).history := by
  rcases smoothStep_cases k raw s with e | ⟨_, _, e⟩ <;> simp [e]

theorem debounceStep_history (k : Fin 10) (raw : BitVec 1) (s : State) :
    s.history <+: (debounceStep k raw s).history := by
  rcases debounceStep_cases k raw s with e | ⟨_, _, e⟩ <;> simp [e]

theorem decodeByte_history (b : Byte) (s : State) : s.history <+: (decodeByte b s).1.history := by
  unfold decodeByte
  split
  · exact List.prefix_refl _
  · unfold decodePayload
    split
    · exact List.prefix_refl _
    · exact List.prefix_refl _
    · exact List.prefix_append _ _
    · exact List.prefix_append _ _

theorem decodeBytes_history (bs : List Byte) (s : State) : s.history <+: (decodeBytes bs s).1.history := by
  induction bs generalizing s with
  | nil => exact List.prefix_refl _
  | cons b bs ih =>
    cases bs with
    | nil => exact decodeByte_history b s
    | cons c cs => exact (decodeByte_history b s).trans (ih _)

/-! ## What each operation writes -/

/-- The operations that feed the decoder (R50, log 10). -/
def FeedsDecoder (i : Instr) : Prop :=
  (∃ b, i = .decb b) ∨ i = .decnext ∨ (∃ c, i = .hdrA c) ∨ (∃ c, i = .hdrD c) ∨ (∃ p, i = .payload p) ∨
  (∃ c h l, i = .pktA c h l) ∨ (∃ c v, i = .pktD c v)

/-- The decoder is RD's alone (R240, R281). -/
theorem FeedsDecoder.owners_eq {i : Instr} (h : FeedsDecoder i) : owners i = [.rd] := by
  rcases h with ⟨_, rfl⟩ | rfl | ⟨_, rfl⟩ | ⟨_, rfl⟩ | ⟨_, rfl⟩ | ⟨_, _, _, rfl⟩ | ⟨_, _, rfl⟩ <;> rfl

/-- The writers of R50: which fields an operation's effect may write, all others being as before, and the history only
growing. -/
inductive Writes (s : State) : Instr → State → Prop where
  | rxpush (b buf head hist) (grows : s.history <+: hist) :
      Writes s (.rxpush b) { s with rx := { s.rx with buf := buf, head := head }, history := hist }
  | rxpop (tail) : Writes s .rxpop { s with rx := { s.rx with tail := tail } }
  | rxavail : Writes s .rxavail s
  | rxflush (tail) : Writes s .rxflush { s with rx := { s.rx with tail := tail } }
  | txpush (b buf head) : Writes s (.txpush b) { s with tx := { s.tx with buf := buf, head := head } }
  | txpop (tail wire hist) (grows : s.history <+: hist) :
      Writes s .txpop { s with tx := { s.tx with tail := tail }, wire := wire, history := hist }
  | txavail : Writes s .txavail s
  | txflush (tail) : Writes s .txflush { s with tx := { s.tx with tail := tail } }
  | enca (ch v buf len pos) : Writes s (.enca ch v) { s with encBuf := buf, encLen := len, encPos := pos }
  | encd (ch v buf len pos) : Writes s (.encd ch v) { s with encBuf := buf, encLen := len, encPos := pos }
  | smpa (ch raw latest acc em buf len pos hist) (grows : s.history <+: hist) :
      Writes s (.smpa ch raw)
        { s with rawLatest := latest, acc := acc, cycEmit := em, encBuf := buf, encLen := len, encPos := pos,
                 history := hist }
  | smpd (ch raw rep tim em buf len pos hist) (grows : s.history <+: hist) :
      Writes s (.smpd ch raw)
        { s with rep := rep, dtimer := tim, cycEmit := em, encBuf := buf, encLen := len, encPos := pos,
                 history := hist }
  | cycend (tim em) : Writes s .cycend { s with actTimer := tim, cycEmit := em }
  | feeds (i st ch hi hist) (feeds : FeedsDecoder i) (grows : s.history <+: hist) :
      Writes s i { s with decState := st, decCh := ch, decHi := hi, history := hist }
  | decnext (tail st ch hi done hist) (grows : s.history <+: hist) :
      Writes s .decnext
        { s with rx := { s.rx with tail := tail }, decState := st, decCh := ch, decHi := hi, rdDone := done,
                 history := hist }

/-- Decoding bytes writes the decoder and adds to the history. -/
theorem decodeBytes_appends (bs : List Byte) (s : State) :
    ∃ st ch hi hist, s.history <+: hist ∧
      (decodeBytes bs s).1 = { s with decState := st, decCh := ch, decHi := hi, history := hist } := by
  obtain ⟨st, ch, hi, hist, e⟩ := decodeBytes_frame bs s
  have grows := decodeBytes_history bs s
  rw [e] at grows
  exact ⟨st, ch, hi, hist, grows, e⟩

theorem FeedsDecoder.writes {i : Instr} (h : FeedsDecoder i) (bs : List Byte) (s : State) :
    Writes s i (decodeBytes bs s).1 := by
  obtain ⟨_, _, _, _, grows, e⟩ := decodeBytes_appends bs s
  rw [e]; exact .feeds _ _ _ _ _ h grows

/-- A performed operation writes what R50 lets it. -/
theorem Effect.writes {s u : State} {i : Instr} (h : Effect s i u) : Writes s i u := by
  cases h with
  | rxDrop b full => exact .rxpush b _ _ _ (List.prefix_append _ _)
  | rxPut b room => exact .rxpush b _ _ _ (List.prefix_refl _)
  | rxEmpty | rxTake => exact .rxpop _
  | rxCount => exact .rxavail
  | rxFlush => exact .rxflush _
  | txPut b room => exact .txpush b _ _
  | txEmpty e => exact .txpop _ _ _ (List.prefix_refl _)
  | txTake b ne => exact .txpop _ _ _ (List.prefix_append _ _)
  | txCount => exact .txavail
  | txFlush => exact .txflush _
  | enca ch v e =>
    obtain ⟨_, h⟩ := encLoad_frame e s
    rw [h]; exact .enca _ _ _ _ _
  | encd ch v e =>
    obtain ⟨_, h⟩ := encLoad_frame e s
    rw [h]; exact .encd _ _ _ _ _
  | smpa ch raw =>
    have grows := smoothStep_history (analogIx ch) raw s
    obtain ⟨_, _, _, _, _, _, e⟩ := smoothStep_frame (analogIx ch) raw s
    rw [e] at grows ⊢; exact .smpa _ _ _ _ _ _ _ _ _ grows
  | smpd ch raw =>
    have grows := debounceStep_history (digitalIx ch) raw s
    obtain ⟨_, _, _, _, _, _, _, e⟩ := debounceStep_frame (digitalIx ch) raw s
    rw [e] at grows ⊢; exact .smpd _ _ _ _ _ _ _ _ _ grows
  | cycend => exact .cycend _ _
  | decnext b ne =>
    obtain ⟨_, _, _, _, grows, e⟩ :=
      decodeBytes_appends [b] { s with rx := { s.rx with tail := (s.rx.tail + 1) % s.cfg.cRx } }
    rw [e]; exact .decnext _ _ _ _ _ _ grows
  | streamEnd e eos => exact .decnext _ _ _ _ _ _ (List.prefix_append _ _)
  | decb | hdrA | hdrD | payload | pktA | pktD => exact FeedsDecoder.writes (by simp [FeedsDecoder]) _ _

theorem Writes.history {s u : State} {i : Instr} (h : Writes s i u) : s.history <+: u.history := by
  cases h with
  | rxpush _ _ _ _ grows | txpop _ _ _ grows | smpa _ _ _ _ _ _ _ _ _ grows | smpd _ _ _ _ _ _ _ _ _ grows
  | feeds _ _ _ _ _ _ grows | decnext _ _ _ _ _ _ grows => exact grows
  | _ => exact List.prefix_refl _

/-- What no effect writes: the parameters, the inputs, the issuer, the streams, the schedule, and but for TXPOP the wire. -/
theorem Writes.environment {s u : State} {i : Instr} (h : Writes s i u) :
    u.cfg = s.cfg ∧ u.ain = s.ain ∧ u.din = s.din ∧ u.eos = s.eos ∧ u.issuer = s.issuer ∧ u.streams = s.streams ∧
    u.schedule = s.schedule ∧ (i ≠ .txpop → u.wire = s.wire) := by
  cases h <;> simp

/-- An operation with one owner is that agent's. -/
theorem Ready.issuer_eq {i : Instr} {s : State} {a : Agent} (h : Ready i s) (ho : owners i = [a]) :
    s.issuer = a := by
  simpa [owns, ho] using h.owned

/-- Settles O54: what is not performed writes latches and slots alone, and what is performed writes as R50 says. -/
theorem operationsLeaveEnvironment : Obligations.OperationsLeaveEnvironment := by
  intro i s t h
  cases exec_next h with
  | refused | raised | held => simp
  | performed w u ready effect => exact effect.writes.environment

/-- Settles O53: an operation that is not performed writes no piece of R50's table; one that is writes its own, and the
ownership check has passed. -/
theorem stateHasItsWritersOnly : Obligations.StateHasItsWritersOnly := by
  intro i s t h
  cases exec_next h with
  | refused | raised | held => simp
  | performed w u ready effect =>
    cases effect.writes with
    | rxavail | txavail => simp
    | feeds i st ch hi hist feeds grows =>
      simpa [ready.issuer_eq feeds.owners_eq, FeedsDecoder] using fun _ => feeds
    | _ => simp [ready.issuer_eq rfl]

/-! ## What every step keeps of the latches, the history and the configuration -/

/-- From s to t no latch was cleared or changed, the history only grew, and the parameters stayed. -/
structure RecordKept (s t : State) : Prop where
  fault : ∀ v, s.faultLatch = some v → t.faultLatch = some v
  refusal : ∀ v, s.refusalLatch = some v → t.refusalLatch = some v
  history : s.history <+: t.history
  cfg : t.cfg = s.cfg

theorem RecordKept.trans {s u t : State} (h₁ : RecordKept s u) (h₂ : RecordKept u t) : RecordKept s t where
  fault v hv := h₂.fault v (h₁.fault v hv)
  refusal v hv := h₂.refusal v (h₁.refusal v hv)
  history := h₁.history.trans h₂.history
  cfg := h₂.cfg.trans h₁.cfg

/-- Where the latches, the history and the parameters are the same, they are kept. -/
theorem RecordKept.of_eq {s t : State} (hfault : t.faultLatch = s.faultLatch)
    (hrefusal : t.refusalLatch = s.refusalLatch) (hhist : t.history = s.history) (hcfg : t.cfg = s.cfg) :
    RecordKept s t where
  fault _ hv := hfault.trans hv
  refusal _ hv := hrefusal.trans hv
  history := by rw [hhist]
  cfg := hcfg

theorem refuse_recordKept (why : RefuseReason) (s : State) : RecordKept s (refuse why s) where
  fault _ hv := hv
  refusal _ hv := by simp [hv]
  history := List.prefix_refl _
  cfg := rfl

theorem SameBlock.recordKept {s t : State} (h : SameBlock s t) : RecordKept s t := by
  rw [h]; exact .of_eq rfl rfl rfl rfl

theorem stagePush_recordKept (s : State) : RecordKept s (stagePush s) := by
  rcases stagePush_cases s with ⟨_, e⟩ | ⟨_, _, e⟩ | ⟨_, _, e⟩
  all_goals rw [e]; apply RecordKept.of_eq <;> simp

theorem exec_recordKept {i : Instr} {s t : State} (h : exec i s = .next t) : RecordKept s t := by
  cases exec_next h with
  | refused why stop => exact refuse_recordKept why s
  | raised v stop => exact ⟨fun _ hv => by simp [hv], fun _ hv => hv, List.prefix_refl _, rfl⟩
  | held why => exact .of_eq rfl rfl rfl rfl
  | performed w u ready effect =>
    obtain ⟨hfault, hrefusal, _⟩ := effect.frame
    obtain ⟨hcfg, _⟩ := effect.writes.environment
    exact ⟨fun _ hv => hfault.trans hv, fun _ hv => hrefusal.trans hv, effect.writes.history, hcfg⟩

theorem BlockStep.recordKept {s t : State} (h : BlockStep s t) : RecordKept s t := by
  cases h with
  | nothing => exact .of_eq rfl rfl rfl rfl
  | stage => exact stagePush_recordKept s
  | reset eos => exact ⟨fun _ hv => hv, fun _ hv => hv, List.prefix_append _ _, rfl⟩
  | illegal why => exact refuse_recordKept why s
  | performs i t h => exact exec_recordKept h

/-- Settles O52: the block's own change keeps them, and the changes outside the block do not touch them. -/
theorem latchesHistoryConfigKept : Obligations.LatchesHistoryConfigKept := by
  intro s t h
  obtain ⟨u, v, hbefore, hblock, hafter⟩ := step_next h
  obtain ⟨hfault, hrefusal, ⟨more, hmore⟩, hcfg⟩ :=
    (hbefore.recordKept.trans hblock.recordKept).trans hafter.recordKept
  exact ⟨hfault, hrefusal, ⟨more, hmore.symm⟩, hcfg⟩

/-! ## The invariant of the block -/

theorem wireBytes_length_le (e : Event) : (wireBytes e).length ≤ 3 := by
  cases e <;> simp [wireBytes, payloadBytes]

/-- What is outside the block is not in its invariant. -/
theorem BlockInv.of_sameBlock {s t : State} (h : BlockInv s) (hsame : SameBlock s t) : BlockInv t := by
  rw [hsame]; exact { h with }

theorem BlockInv.encLoad {s : State} (h : BlockInv s) (e : Event) : BlockInv (encLoad e s) := by
  obtain ⟨buf, hload⟩ := encLoad_frame e s
  rw [hload]; exact { h with pos := Nat.zero_le _, len := wireBytes_length_le e }

theorem BlockInv.emitSample {s : State} (h : BlockInv s) (e : Event) : BlockInv (emitSample e s) := by
  refine BlockInv.encLoad ?_ e
  exact { h with }

theorem BlockInv.decodeBytes {s : State} (h : BlockInv s) (bs : List Byte) : BlockInv (decodeBytes bs s).1 := by
  obtain ⟨st, ch, hi, hist, e⟩ := decodeBytes_frame bs s
  rw [e]; exact { h with }

theorem BlockInv.smoothStep {s : State} (h : BlockInv s) (k : Fin 6) (raw : BitVec 10) :
    BlockInv (smoothStep k raw s) := by
  rcases smoothStep_cases k raw s with e | ⟨ev, acc, e⟩ <;> rw [e]
  · exact { h with }
  · refine BlockInv.emitSample ?_ ev
    exact { h with }

/-- A timer set within the debounce window keeps the invariant (R40). -/
theorem BlockInv.set_dtimer {s : State} (h : BlockInv s) (k : Fin 10) {x : Nat} (hx : x ≤ s.cfg.deb) :
    BlockInv { s with dtimer := s.dtimer.set k x } :=
  { h with
    dtimer := fun j => by
      simp only [Fin.getElem_fin, Vector.getElem_set]
      split
      · exact hx
      · exact h.dtimer j }

theorem BlockInv.debounceStep {s : State} (h : BlockInv s) (k : Fin 10) (raw : BitVec 1) :
    BlockInv (debounceStep k raw s) := by
  rcases debounceStep_cases k raw s with e | ⟨ev, rep, e⟩ <;> rw [e]
  · exact h.set_dtimer k ((Nat.sub_le _ _).trans (h.dtimer k))
  · refine BlockInv.emitSample ?_ ev
    exact { h.set_dtimer k (Nat.sub_le s.cfg.deb 1) with }

theorem BlockInv.stagePush {s : State} (h : BlockInv s) : BlockInv (stagePush s) := by
  rcases stagePush_cases s with ⟨_, e⟩ | ⟨_, _, e⟩ | ⟨hbusy, hroom, e⟩ <;> rw [e]
  · exact h
  · exact { h with }
  · have hpos : s.encPos < s.encLen := of_decide_eq_true hbusy
    have hlen := h.len
    unfold stageAdvance
    split
    · exact { h with tx := h.tx.put _ hroom, pos := Nat.le_refl 0, len := Nat.zero_le 3 }
    · exact { h with tx := h.tx.put _ hroom, pos := hpos }

theorem BlockInv.resetBlock {s : State} (h : BlockInv s) (eos : Bool) : BlockInv (resetBlock eos s) where
  cfg := h.cfg
  rx := RingOk.reset h.cfg.cRx_min
  tx := RingOk.reset h.cfg.cTx_min
  dtimer j := by simp [Machine.resetBlock]
  act := Nat.zero_le _
  pos := Nat.le_refl 0
  len := Nat.zero_le 3

/-- A performed operation keeps the invariant. -/
theorem Effect.keepsInv {s u : State} {i : Instr} (he : Effect s i u) (h : BlockInv s) : BlockInv u := by
  cases he with
  | rxEmpty | rxCount | txEmpty | txCount => exact h
  | rxDrop | streamEnd => exact { h with }
  | rxPut b room => exact { h with rx := h.rx.put b room }
  | rxTake ne => exact { h with rx := h.rx.popped ne }
  | rxFlush => exact { h with rx := h.rx.flushed }
  | txPut b room => exact { h with tx := h.tx.put b room }
  | txTake b ne => exact { h with tx := h.tx.popped ne }
  | txFlush => exact { h with tx := h.tx.flushed }
  | enca ch v e | encd ch v e => exact h.encLoad e
  | smpa ch raw => exact h.smoothStep _ raw
  | smpd ch raw => exact h.debounceStep _ raw
  | cycend =>
    have hact : (if s.cycEmit then s.cfg.actCycles else satDec s.actTimer) ≤ s.cfg.actCycles := by
      split
      · exact Nat.le_refl _
      · exact (Nat.sub_le _ _).trans h.act
    exact { h with act := hact }
  | decnext b ne =>
    refine BlockInv.decodeBytes ?_ [b]
    exact { h with rx := h.rx.popped ne }
  | decb | hdrA | hdrD | payload | pktA | pktD => exact h.decodeBytes _

theorem exec_keepsInv {i : Instr} {s t : State} (h : BlockInv s) (he : exec i s = .next t) : BlockInv t := by
  cases exec_next he with
  | refused | raised | held => exact { h with }
  | performed w u ready effect => exact { effect.keepsInv h with }

theorem BlockStep.keepsInv {s t : State} (hs : BlockStep s t) (h : BlockInv s) : BlockInv t := by
  cases hs with
  | nothing => exact h
  | stage => exact h.stagePush
  | reset eos => exact h.resetBlock eos
  | illegal why => exact { h with }
  | performs i t he => exact exec_keepsInv h he

/-- Settles O48: a step is one change of the block between changes outside it, and each keeps the invariant. -/
theorem stepKeepsInv : Obligations.StepKeepsInv := by
  intro s t h hstep
  obtain ⟨u, v, hbefore, hblock, hafter⟩ := step_next hstep
  exact (hblock.keepsInv (h.of_sameBlock hbefore)).of_sameBlock hafter

/-- The default parameters meet the constraints of R11. -/
theorem config_default_valid : Config.default.Valid := by
  constructor <;> decide

/-- Settles O49: both rings are empty, every timer and the stage are at 0. -/
theorem resetMeetsInv : Obligations.ResetMeetsInv where
  cfg := config_default_valid
  rx := RingOk.reset config_default_valid.cRx_min
  tx := RingOk.reset config_default_valid.cTx_min
  dtimer j := by simp [State.reset]
  act := Nat.zero_le _
  pos := Nat.le_refl 0
  len := Nat.zero_le 3

/-! ## No fault under the invariant -/

/-- A checked operation faults only where its body does. -/
theorem guarded_noFault {i : Instr} {s : State} {body : State → Host.Outcome State Fault Refusal}
    (h : NoFault (body s)) : NoFault (guarded i s body) := by
  rcases guarded_cases i s body with ⟨_, e⟩ | ⟨_, _, e⟩ | ⟨_, _, _, _, e⟩ | ⟨_, _, _, _, e⟩ | ⟨_, _, _, _, e⟩ <;>
    rw [e]
  case inr.inr.inr.inr => exact h
  all_goals trivial

/-- Under the invariant a pop finds Empty or a byte, so no operation faults (R52). -/
theorem exec_noFault (i : Instr) {s : State} (h : BlockInv s) : NoFault (exec i s) := by
  cases i <;> simp only [exec]
  case reservedOp0 low => trivial
  case rxpush b | txpush b => exact guarded_noFault (by split <;> trivial)
  case rxpop =>
    refine guarded_noFault ?_
    rcases h.rx.pop_cases with ⟨_, e⟩ | ⟨_, b, _, e⟩ <;> simp only [e] <;> trivial
  case txpop =>
    refine guarded_noFault ?_
    rcases h.tx.pop_cases with ⟨_, e⟩ | ⟨_, b, _, e⟩ <;> simp only [e] <;> trivial
  case decnext =>
    refine guarded_noFault ?_
    rcases h.rx.pop_cases with ⟨_, e⟩ | ⟨_, b, _, e⟩ <;> simp only [e]
    · split <;> trivial
    · trivial
  all_goals exact guarded_noFault trivial

theorem keepIssuedIn_noFault {o : Host.Outcome State Fault Refusal} (a : Agent) (it : Item) (h : NoFault o) :
    NoFault (keepIssuedIn a it o) := by
  cases o with
  | next t => trivial
  | fault r => exact h
  | refused r => trivial

theorem runCode_noFault (a : Agent) (c : Code) {s : State} (h : BlockInv s) : NoFault (runCode a c s) := by
  unfold runCode
  split
  · exact exec_noFault _ { h with }
  · trivial
  · trivial

theorem attempt_noFault (a : Agent) (it : Item) {s : State} (h : BlockInv s) : NoFault (attempt a it s) := by
  cases it with
  | code c => exact runCode_noFault a c h
  | sampleA ch => exact keepIssuedIn_noFault a _ (exec_noFault _ { h with })
  | sampleD ch => exact keepIssuedIn_noFault a _ (exec_noFault _ { h with })

theorem agentIssue_noFault (a : Agent) {s : State} (h : BlockInv s) : NoFault (agentIssue a s) := by
  unfold agentIssue
  split
  · split <;> trivial
  · exact attempt_noFault a _ h
  · split
    · trivial
    · exact attempt_noFault a _ { h with }

theorem agentTurn_noFault (a : Agent) {s : State} (h : BlockInv s) : NoFault (agentTurn a s) := by
  unfold agentTurn
  split
  · trivial
  · exact agentIssue_noFault a h

/-- Only an agent's operation can fault, the stage push and the environment's moves never do. -/
theorem runMove_noFault (m : Move) {s : State} (h : BlockInv s) : NoFault (runMove m s) := by
  cases m with
  | run a => exact agentTurn_noFault a h
  | issue a => exact agentIssue_noFault a h
  | supply | deliver | lose | corrupt =>
    simp only [runMove]
    split <;> trivial
  | _ => trivial

/-- Settles O50: the invariant does not read the schedule, and no move faults under it. -/
theorem noStepFaults : Obligations.NoStepFaults := by
  intro s h
  unfold step turn
  split
  · trivial
  · exact runMove_noFault _ { h with }

/-! ## Operations the checks stop, and reset -/

/-- Every operation but the reserved one makes the checks of R283 first. -/
theorem exec_eq_guarded {i : Instr} (hi : ∀ low, i ≠ .reservedOp0 low) (s : State) :
    ∃ body, exec i s = guarded i s body := by
  cases i <;> simp only [exec]
  case reservedOp0 low => exact (hi low rfl).elim
  all_goals exact ⟨_, rfl⟩

/-- An operation of an agent that does not own it is raised (R282). -/
theorem guarded_of_not_owned {i : Instr} {s : State} {body : State → Host.Outcome State Fault Refusal}
    (hw : WellFormed i) (ho : owns i s.issuer = false) :
    guarded i s body = .next (raiseViolation (.ownershipViolation i s.issuer) s) := by
  have hlegal : i.wellFormed = true := hw
  simp [guarded, hlegal, ho]

/-- RD's operation after end of stream is refused (R247). -/
theorem guarded_of_rdDone {i : Instr} {s : State} {body : State → Host.Outcome State Fault Refusal}
    (hw : WellFormed i) (ho : owns i .rd = true) (hrd : s.issuer = .rd) (hdone : s.rdDone = true) :
    guarded i s body = .next (refuse .afterEnd s) := by
  have hlegal : i.wellFormed = true := hw
  simp [guarded, hlegal, hrd, ho, hdone]

/-- Settles O39: check (3) of R283 comes before anything the operation does. -/
theorem readerAfterEndIsRefused : Obligations.ReaderAfterEndIsRefused := by
  intro i s hw ho hrd hdone
  have hi : ∀ low, i ≠ .reservedOp0 low := by rintro low rfl; simp [owns, owners] at ho
  obtain ⟨body, e⟩ := exec_eq_guarded hi s
  exact ⟨_, e.trans (guarded_of_rdDone hw ho hrd hdone), rfl, rfl, portCleared_refuse .afterEnd s⟩

/-- Settles O41: `raise` keeps a latch that is set and clears the issuer's slot. -/
theorem raisedOperationIsConsumed : Obligations.RaisedOperationIsConsumed := by
  intro i s hw hi ho
  obtain ⟨body, e⟩ := exec_eq_guarded hi s
  exact ⟨_, e.trans (guarded_of_not_owned hw ho), fun v hv => by simp [hv], portCleared_raise _ s⟩

/-- Settles O43: the move is the reset operation, which writes none of what it is said to leave. -/
theorem resetLeavesSurroundings : Obligations.ResetLeavesSurroundings := by
  intro e s
  exact ⟨resetBlock e s, rfl, fun k => ⟨rfl, rfl⟩, fun i => by simp [resetBlock], rfl, rfl, rfl, rfl, rfl, rfl, rfl,
    rfl, rfl⟩

end Sys2Proof.Machine
end

section
/-! PROOF. What the receiver is offered under each WIRE_MODEL (spec/20_memory.md R81, R82): one lemma per move on the
wire and on RXI's stream, for each case in which the model admits it or not (log 14). -/

namespace Sys2Proof.Machine

/-! ## An RXPUSH in a stream -/

/-- The mask of a byte command's row keeps everything but the byte (R117). -/
theorem opWord_byte_and_rowMask (op : BitVec 4) (b : Byte) :
    opWord op 0 (b.setWidth 10) &&& 0xFFFF00 = opWord op 0 0 := by
  refine and_eq_of_bits fun i hi => ?_
  simp only [getLsbD_opWord]
  interval_cases i <;> simp

/-- RXPUSH's command word reads back as RXPUSH with its byte (R117). -/
theorem decode_encode_rxpush (b : Byte) : decode (encode (.rxpush b)) = .ok (.rxpush b) := by
  have hmask : opWord 0x1 0 (b.setWidth 10) &&& 0xFFFF00 = 0x100000 := opWord_byte_and_rowMask 0x1 b
  simpa [decode, encode, decodeCommand, commandWord] using rowInstr_ok hmask rfl

theorem isRxpush_encode_rxpush (b : Byte) : isRxpush (.code (encode (.rxpush b))) = true := by
  simp only [isRxpush, decode_encode_rxpush]

/-! ## The moves that offer a byte or lose one -/

section Moves
variable {s : State} {b : Byte} {rest : List Byte}

/-- Under Free the environment offers any byte by supplying its RXPUSH. -/
theorem supply_rxpush_of_free (c : Byte) (h : s.cfg.wireModel = .free) :
    runMove (.supply .rxi (.code (encode (.rxpush c)))) s = .next (offer c s) :=
  if_neg fun ⟨_, _, hne⟩ => hne h

/-- Under either loopback RXI's bytes come from the wire only. -/
theorem supply_rxpush_of_not_free (c : Byte) (h : s.cfg.wireModel ≠ .free) :
    runMove (.supply .rxi (.code (encode (.rxpush c)))) s = .refused .wireModelForbids :=
  if_pos ⟨rfl, isRxpush_encode_rxpush c, h⟩

theorem deliver_of_free (h : s.cfg.wireModel = .free) : runMove .deliver s = .refused .wireModelForbids := by
  simp only [runMove, h]

theorem deliver_of_wire_nil (hw : s.wire = []) : runMove .deliver s = .refused .wireModelForbids := by
  cases h : s.cfg.wireModel <;> simp only [runMove, h, hw]

/-- Under either loopback the front byte of the wire is offered unchanged. -/
theorem deliver_front (h : s.cfg.wireModel ≠ .free) (hw : s.wire = b :: rest) :
    runMove .deliver s = .next (offer b { s with wire := rest }) := by
  cases hm : s.cfg.wireModel with
  | free => exact (h hm).elim
  | loopback | lossyLoopback => simp only [runMove, hm, hw]

/-- Only LossyLoopback loses bytes. -/
theorem lose_of_not_lossy (h : s.cfg.wireModel ≠ .lossyLoopback) :
    runMove .lose s = .refused .wireModelForbids := by
  cases hm : s.cfg.wireModel with
  | lossyLoopback => exact (h hm).elim
  | free | loopback => simp only [runMove, hm]

theorem lose_of_wire_nil (hw : s.wire = []) : runMove .lose s = .refused .wireModelForbids := by
  cases h : s.cfg.wireModel <;> simp only [runMove, h, hw]

theorem lose_front (h : s.cfg.wireModel = .lossyLoopback) (hw : s.wire = b :: rest) :
    runMove .lose s = .next { s with wire := rest } := by
  simp only [runMove, h, hw]

/-- Only LossyLoopback replaces bytes. -/
theorem corrupt_of_not_lossy (c : Byte) (h : s.cfg.wireModel ≠ .lossyLoopback) :
    runMove (.corrupt c) s = .refused .wireModelForbids := by
  cases hm : s.cfg.wireModel with
  | lossyLoopback => exact (h hm).elim
  | free | loopback => simp only [runMove, hm]

theorem corrupt_of_wire_nil (c : Byte) (hw : s.wire = []) :
    runMove (.corrupt c) s = .refused .wireModelForbids := by
  cases h : s.cfg.wireModel <;> simp only [runMove, h, hw]

/-- The front byte of the wire is offered as any byte. -/
theorem corrupt_front (c : Byte) (h : s.cfg.wireModel = .lossyLoopback) (hw : s.wire = b :: rest) :
    runMove (.corrupt c) s = .next (offer c { s with wire := rest }) := by
  simp only [runMove, h, hw]

end Moves

/-! ## The obligations -/

/-- Settles O55: Loopback is neither Free, so RXI's bytes come from the wire, nor LossyLoopback, so the wire keeps them. -/
theorem loopbackOffersWireBytes : Obligations.LoopbackOffersWireBytes := by
  intro s b rest h
  have hfree : s.cfg.wireModel ≠ .free := by simp [h]
  have hlossy : s.cfg.wireModel ≠ .lossyLoopback := by simp [h]
  exact ⟨deliver_front hfree, deliver_of_wire_nil, fun c => supply_rxpush_of_not_free c hfree,
    fun c => corrupt_of_not_lossy c hlossy, lose_of_not_lossy hlossy⟩

/-- Settles O56, move by move: Free supplies and never reads the wire, LossyLoopback reads the wire and never supplies. -/
theorem freeAndLossyOffers : Obligations.FreeAndLossyOffers := by
  intro s b c rest
  refine ⟨fun hfree => ?_, fun hlossy => ?_⟩
  · have hnot : s.cfg.wireModel ≠ .lossyLoopback := by simp [hfree]
    exact ⟨supply_rxpush_of_free c hfree, deliver_of_free hfree, lose_of_not_lossy hnot, corrupt_of_not_lossy c hnot⟩
  · have hnot : s.cfg.wireModel ≠ .free := by simp [hlossy]
    exact ⟨supply_rxpush_of_not_free c hnot,
      fun hw => ⟨deliver_front hnot hw, corrupt_front c hlossy hw, lose_front hlossy hw⟩,
      fun hw => ⟨deliver_of_wire_nil hw, corrupt_of_wire_nil c hw, lose_of_wire_nil hw⟩⟩

end Sys2Proof.Machine
end

section
/-! PROOF. The two encodings (spec/30_encoding.md): a row's word under its mask and its operand fields give decode after
encode and encode after decode, and with them which words are legal; a wire byte is its class's bits over the operand. -/

namespace Sys2Proof.Machine

/-! ## A command word and its row (R115 to R117) -/

/-- The mask of ENCA's and SMPA's rows keeps everything but the channel and the value (R117). -/
theorem opWord_analog_and_rowMask (op ch : BitVec 4) (d : BitVec 10) :
    opWord op ch d &&& 0xF0FC00 = opWord op 0 0 := by
  refine and_eq_of_bits fun i hi => ?_
  simp only [getLsbD_opWord]
  interval_cases i <;> simp

/-- The mask of ENCD's and SMPD's rows keeps everything but the channel and the level (R117). -/
theorem opWord_digital_and_rowMask (op ch : BitVec 4) (v : BitVec 1) :
    opWord op ch (v.setWidth 10) &&& 0xF0FFFE = opWord op 0 0 := by
  refine and_eq_of_bits fun i hi => ?_
  simp only [getLsbD_opWord]
  interval_cases i <;> simp

/-- Words that agree inside a mask and outside it are equal. -/
theorem eq_of_and_eq_of_and_not_eq {n : Nat} {x y m : BitVec n} (hin : x &&& m = y &&& m)
    (hout : x &&& ~~~m = y &&& ~~~m) : x = y := by
  have hsplit : ∀ z : BitVec n, z &&& m ||| z &&& ~~~m = z := fun z => by
    rw [← BitVec.and_or_distrib_left]; simp
  rw [← hsplit x, ← hsplit y, hin, hout]

/-- A word of a byte command's row is its OP and its byte. -/
theorem opWord_byteField {op : BitVec 4} {w : CmdWord} (h : w &&& 0xFFFF00 = opWord op 0 0) :
    opWord op 0 ((byteField w).setWidth 10) = w := by
  refine eq_of_and_eq_of_and_not_eq ((opWord_byte_and_rowMask op _).trans h.symm) ?_
  refine BitVec.eq_of_getLsbD_eq fun i hi => ?_
  simp only [BitVec.getLsbD_and, getLsbD_opWord]
  interval_cases i <;> simp [byteField]

/-- A word of an analog row is its OP, its channel and its value. -/
theorem opWord_dataField {op : BitVec 4} {w : CmdWord} (h : w &&& 0xF0FC00 = opWord op 0 0) :
    opWord op (chField w) (dataField w) = w := by
  refine eq_of_and_eq_of_and_not_eq ((opWord_analog_and_rowMask op _ _).trans h.symm) ?_
  refine BitVec.eq_of_getLsbD_eq fun i hi => ?_
  simp only [BitVec.getLsbD_and, getLsbD_opWord]
  interval_cases i <;> simp [chField, dataField]

/-- A word of a digital row is its OP, its channel and its level. -/
theorem opWord_bitField {op : BitVec 4} {w : CmdWord} (h : w &&& 0xF0FFFE = opWord op 0 0) :
    opWord op (chField w) ((bitField w).setWidth 10) = w := by
  refine eq_of_and_eq_of_and_not_eq ((opWord_digital_and_rowMask op _ _).trans h.symm) ?_
  refine BitVec.eq_of_getLsbD_eq fun i hi => ?_
  simp only [BitVec.getLsbD_and, getLsbD_opWord]
  interval_cases i <;> simp [chField, bitField]

/-- A word with OP = 0x0 is its other 20 bits (R116). -/
theorem zero_append_low {w : CmdWord} (h : (opField w).toNat = 0) : 0#4 ++ w.extractLsb' 0 20 = w := by
  have hop : w.extractLsb' 20 4 = 0#4 := BitVec.eq_of_toNat_eq h
  rw [← hop]
  exact BitVec.extractLsb'_append_extractLsb'

/-- Settles O1: each row's word matches the row, and its fields read back its operands. -/
theorem decodeOfEncode : Obligations.DecodeOfEncode := by
  intro i hi
  cases i with
  | rxpush b | txpush b | decb b =>
    simp only [decode, encode, decodeCommand, commandWord, opField_opWord, byteField_opWord]
    exact rowInstr_ok (opWord_byte_and_rowMask _ b) hi
  | enca ch v | smpa ch v =>
    simp only [decode, encode, decodeCommand, commandWord, opField_opWord, chField_opWord, dataField_opWord]
    exact rowInstr_ok (opWord_analog_and_rowMask _ ch v) hi
  | encd ch v | smpd ch v =>
    simp only [decode, encode, decodeCommand, commandWord, opField_opWord, chField_opWord, bitField_opWord]
    exact rowInstr_ok (opWord_digital_and_rowMask _ ch v) hi
  | rxpop | rxavail | rxflush | txpop | txavail | txflush | cycend | decnext => rfl
  | reservedOp0 low =>
    have hop : opField (0#4 ++ low) = 0#4 := Laws.OpField.reservedOp0 low
    have hlow : (0#4 ++ low).extractLsb' 0 20 = low := BitVec.extractLsb'_append_eq_right
    simp only [decode, encode, decodeCommand, commandWord, hop, hlow]
    rfl
  | hdrA | hdrD | payload | pktA | pktD => simp [decode, encode, decodeWire]

/-- Settles O2: the word matches the row it decodes by, so it is the row's OP and the operands read from it. -/
theorem encodeOfDecodedCommand : Obligations.EncodeOfDecodedCommand := by
  intro w i h
  unfold decodeCommand at h
  split at h
  case h_1 hop =>
    cases h
    exact ⟨rfl, congrArg Code.command (zero_append_low hop)⟩
  all_goals
    obtain ⟨hw, hi, rfl⟩ := rowInstr_eq_ok h
    refine ⟨hi, congrArg Code.command ?_⟩
  case h_2 | h_6 | h_15 => exact opWord_byteField hw
  case h_10 | h_12 => exact opWord_dataField hw
  case h_11 | h_13 => exact opWord_bitField hw
  all_goals exact hw.symm.trans BitVec.and_allOnes

/-! ## Legal words (R118) -/

theorem chField_toNat (w : CmdWord) : (chField w).toNat = w.toNat / 65536 % 16 := by
  simp [chField, Nat.shiftRight_eq_div_pow]

/-- A word with a row's OP, nothing outside its operands and a channel in its range is legal. -/
theorem legalWord_opWord {op ch : BitVec 4} {d : BitVec 10} {mask : CmdWord} (n : Nat)
    (hrow : (opWord op 0 0, mask, n) ∈ commandRows) (hmask : opWord op ch d &&& mask = opWord op 0 0)
    (hch : ch.toNat ≤ n) : LegalWord (opWord op ch d) := by
  refine ⟨_, hrow, hmask, ?_⟩
  rwa [← chField_toNat, chField_opWord]

/-- The word of a well-formed command is legal unless its OP is the reserved one. -/
theorem legalWord_of_encode {i : Instr} {w : CmdWord} (hi : WellFormed i) (hw : encode i = .command w)
    (hres : ∀ low, i ≠ .reservedOp0 low) : LegalWord w := by
  cases i <;> cases hw
  case reservedOp0 low => exact (hres low rfl).elim
  case rxpush b | txpush b | decb b =>
    exact legalWord_opWord 15 (by decide) (opWord_byte_and_rowMask _ b) (by decide)
  case enca ch v | smpa ch v =>
    exact legalWord_opWord 5 (by decide) (opWord_analog_and_rowMask _ ch v) (of_decide_eq_true hi)
  case encd ch v | smpd ch v =>
    exact legalWord_opWord 9 (by decide) (opWord_digital_and_rowMask _ ch v) (of_decide_eq_true hi)
  all_goals exact legalWord_opWord 15 (by decide) BitVec.and_allOnes (by decide)

/-- An illegal word is refused: it decodes to no instruction, or to the reserved one, which is refused with its word. -/
theorem runCode_of_not_legalWord {w : CmdWord} (a : Agent) (s : State) (h : ¬ LegalWord w) :
    runCode a (.command w) s = .next (refuse (.illegalCommand w) { s with issuer := a }) := by
  cases hd : decode (.command w) with
  | error r => simp only [runCode, hd]
  | ok i =>
    obtain ⟨hi, hw⟩ := encodeOfDecodedCommand w i hd
    by_cases hres : ∃ low, i = .reservedOp0 low
    · obtain ⟨low, rfl⟩ := hres
      cases hw
      simp only [runCode, hd]
      rfl
    · exact (h (legalWord_of_encode hi hw (not_exists.mp hres))).elim

/-- Settles O5: the step is `refuse`, which writes its latch and the agent's slot alone. -/
theorem illegalWordIsRefused : Obligations.IllegalWordIsRefused := by
  intro a w s h
  refine ⟨_, runCode_of_not_legalWord a s h, by simp, fun hclear => by simp [hclear], rfl, fun _ => by simp,
    fun b hb => ?_⟩
  simp [PerAgent.get_set_other _ _ hb]

/-! ## Wire bytes (R101, R105, R106) -/

/-- A byte is its bits 7 and 6 over its other six. -/
theorem append_extractLsb'_six {b : Byte} {k : BitVec 2} (h7 : b.getLsbD 7 = k.getLsbD 1)
    (h6 : b.getLsbD 6 = k.getLsbD 0) : k ++ b.extractLsb' 0 6 = b := by
  have hk : b.extractLsb' 6 2 = k := BitVec.eq_of_getLsbD_eq fun i hi => by
    interval_cases i
    · simpa using h6
    · simpa using h7
  rw [← hk]
  exact BitVec.extractLsb'_append_extractLsb'

/-- A byte is its bit 7 over its other seven. -/
theorem append_extractLsb'_seven {b : Byte} {k : BitVec 1} (h7 : b.getLsbD 7 = k.getLsbD 0) :
    k ++ b.extractLsb' 0 7 = b := by
  have hk : b.extractLsb' 7 1 = k := BitVec.eq_of_getLsbD_eq fun i hi => by
    interval_cases i
    simpa using h7
  rw [← hk]
  exact BitVec.extractLsb'_append_extractLsb'

/-- A wire byte is the one byte its class's instruction encodes to (R101). -/
theorem encode_decodeByteClass (b : Byte) : encode (decodeByteClass b) = .wire [b] := by
  unfold decodeByteClass
  split
  case isTrue h7 =>
    split
    case isTrue h6 => exact congrArg (Code.wire [·]) (append_extractLsb'_six h7 h6)
    case isFalse h6 => exact congrArg (Code.wire [·]) (append_extractLsb'_six h7 (Bool.eq_false_iff.mpr h6))
  case isFalse h7 => exact congrArg (Code.wire [·]) (append_extractLsb'_seven (Bool.eq_false_iff.mpr h7))

theorem encode_of_decodeByteClass {b : Byte} {i : Instr} (h : decodeByteClass b = i) : encode i = .wire [b] :=
  h ▸ encode_decodeByteClass b

/-- Settles O3: a unit's bytes are each the byte of its class. -/
theorem encodeOfDecodedWire : Obligations.EncodeOfDecodedWire := by
  intro bs i h
  unfold decodeWire at h
  split at h
  case h_1 b => cases h; exact encode_decodeByteClass b
  case h_2 b0 b1 =>
    split at h <;> cases h
    rename_i h0 h1
    cases encode_of_decodeByteClass h0
    cases encode_of_decodeByteClass h1
    rfl
  case h_3 b0 b1 b2 =>
    split at h <;> cases h
    rename_i h0 h1 h2
    cases encode_of_decodeByteClass h0
    cases encode_of_decodeByteClass h1
    cases encode_of_decodeByteClass h2
    rfl
  case h_4 => cases h

/-- Settles O4: the decoder evaluates each word. -/
theorem wordsDecodeAsTabled : Obligations.WordsDecodeAsTabled := by
  unfold Obligations.WordsDecodeAsTabled
  decide

/-! ## Result words of events (R112) -/

/-- Fields side by side are the number whose digits they are. -/
theorem toNat_append_add {m n : Nat} (x : BitVec m) (y : BitVec n) :
    (x ++ y).toNat = x.toNat * 2 ^ n + y.toNat := by
  rw [BitVec.toNat_append, ← Nat.shiftLeft_add_eq_or_of_lt y.isLt, Nat.shiftLeft_eq]

/-- Settles O36: the word's fields side by side, V = 1 and K on top. -/
theorem eventWordFields : Obligations.EventWordFields := by
  constructor <;> intro ch v <;> simp only [eventWord, toNat_append_add, BitVec.toNat_ofNat] <;> omega

end Sys2Proof.Machine
end

section
/-! PROOF. The wire rows as the decoder takes them (spec/43_decoder.md): a byte fed to it makes the transition of R248's
table, and a packet's bytes in wire order give its event. -/

namespace Sys2Proof.Machine

/-! ## An operation the checks let through -/

/-- A Ready operation whose body always goes on to a next state does just that. -/
theorem Ready.exec_eq {i : Instr} {s : State} {f : State → State} (hr : Ready i s)
    (hbody : exec i s = guarded i s fun s => .next (f s)) : exec i s = .next (f s) :=
  hbody.trans hr.pass

/-- A performed operation's result stands on its issuer's port. -/
theorem Effect.portDone {s u : State} {i : Instr} (h : Effect s i u) (w : CmdWord) :
    PortDone s (complete w u) w := by
  obtain ⟨_, _, hissuer, hresult, hpending⟩ := h.frame
  exact portDone_complete w hissuer hresult hpending

/-! ## Bytes, groups and result words as numbers -/

theorem toNat_hdrAByte (c : BitVec 6) : (hdrAByte c).toNat = 128 + c.toNat := by
  simp only [hdrAByte, toNat_append_add, BitVec.toNat_ofNat]
  omega

theorem toNat_hdrDByte (c : BitVec 6) : (hdrDByte c).toNat = 192 + c.toNat := by
  simp only [hdrDByte, toNat_append_add, BitVec.toNat_ofNat]
  omega

theorem toNat_payloadByte (p : BitVec 7) : (payloadByte p).toNat = p.toNat := by
  simp only [payloadByte, toNat_append_add, BitVec.toNat_ofNat]
  omega

/-- A byte with bit 7 clear is its 7-bit group. -/
theorem toNat_payloadGroup {b : Byte} (h7 : b.getLsbD 7 = false) : (b.extractLsb' 0 7).toNat = b.toNat := by
  have hb := congrArg BitVec.toNat (append_extractLsb'_seven (k := 0#1) h7)
  rw [toNat_append_add] at hb
  simpa using hb

/-- The two 7-bit groups of an analog value as a number (R73). -/
theorem joinGroups_eq_ofNat (h l : BitVec 7) :
    h.setWidth 14 <<< 7 ||| l.setWidth 14 = BitVec.ofNat 14 (h.toNat * 128 + l.toNat) := by
  apply BitVec.eq_of_toNat_eq
  have hl := l.isLt
  have hhigh : (h.toNat % 2 ^ 14) <<< 7 % 2 ^ 14 = h.toNat <<< 7 := by omega
  have hlow : l.toNat % 2 ^ 14 = l.toNat := by omega
  simp only [BitVec.toNat_or, BitVec.toNat_shiftLeft, BitVec.toNat_setWidth, BitVec.toNat_ofNat, hhigh, hlow,
    ← Nat.shiftLeft_add_eq_or_of_lt hl]
  omega

/-- The result word of an analog event, its value in two groups (R112). -/
theorem eventWord_analog_groups (ch : BitVec 6) (h l : BitVec 7) :
    eventWord (.analog ch (BitVec.ofNat 14 (h.toNat * 128 + l.toNat))) =
      BitVec.ofNat 24 (0x800000 + ch.toNat * 65536 + h.toNat * 128 + l.toNat) := by
  apply BitVec.eq_of_toNat_eq
  rw [eventWordFields.1, BitVec.toNat_ofNat, BitVec.toNat_ofNat]
  omega

theorem eventWord_digital (ch : BitVec 6) (v : BitVec 7) :
    eventWord (.digital ch v) = BitVec.ofNat 24 (0xC00000 + ch.toNat * 65536 + v.toNat) := by
  apply BitVec.eq_of_toNat_eq
  rw [eventWordFields.2, BitVec.toNat_ofNat]
  omega

/-! ## Feeding the decoder -/

theorem decoderFrame_feedDecoder (bs : List Byte) (s : State) : DecoderFrame s (feedDecoder bs s) := by
  obtain ⟨_, _, _, _, e⟩ := decodeBytes_frame bs s
  unfold feedDecoder
  rw [e]
  rfl

theorem portDone_feedDecoder (bs : List Byte) (s : State) :
    PortDone s (feedDecoder bs s) (eventResult (decodeBytes bs s).2) := by
  obtain ⟨_, _, _, _, e⟩ := decodeBytes_frame bs s
  apply portDone_complete <;> rw [e]

/-- A byte fed to the decoder makes the transition of R248's table, row by row. -/
theorem decoderStep_feedDecoder (b : Byte) (s : State) : DecoderStep b s (feedDecoder [b] s) := by
  have hport := portDone_feedDecoder [b] s
  unfold DecoderStep
  split
  case isTrue h7 =>
    have e : decodeBytes [b] s = (decodeHeader b s, none) := if_pos h7
    simp only [feedDecoder, e] at hport ⊢
    exact ⟨rfl, by simp [decodeHeader], rfl, rfl, hport⟩
  case isFalse h7 =>
    have e : decodeBytes [b] s = decodePayload (b.extractLsb' 0 7) s := if_neg h7
    rw [← toNat_payloadGroup (Bool.eq_false_iff.mpr h7)]
    simp only [feedDecoder, e] at hport ⊢
    unfold decodePayload at hport ⊢
    cases hs : s.decState with
    | idle =>
      simp only [hs] at hport ⊢
      exact ⟨hs, rfl, rfl, rfl, hport⟩
    | awaitAnalogHigh =>
      simp only [hs] at hport ⊢
      exact ⟨rfl, rfl, rfl, rfl, hport⟩
    | awaitAnalogLow =>
      simp only [hs, joinGroups_eq_ofNat, eventResult, eventWord_analog_groups] at hport ⊢
      exact ⟨rfl, rfl, rfl, rfl, hport⟩
    | awaitDigitalValue =>
      simp only [hs, eventResult, eventWord_digital, BitVec.ofNat_toNat, BitVec.setWidth_eq] at hport ⊢
      exact ⟨rfl, rfl, rfl, rfl, hport⟩

/-- Settles O31: a wire byte row feeds the decoder its byte. -/
theorem wireBytesFollowTable : Obligations.WireBytesFollowTable := by
  have hstep : ∀ (b : Byte) (n : Nat) (s : State), b.toNat = n →
      DecoderFrame s (feedDecoder [b] s) ∧ DecoderStep (BitVec.ofNat 8 n) s (feedDecoder [b] s) := by
    rintro b _ s rfl
    rw [BitVec.ofNat_toNat, BitVec.setWidth_eq]
    exact ⟨decoderFrame_feedDecoder [b] s, decoderStep_feedDecoder b s⟩
  exact ⟨fun c s hr => ⟨_, hr.exec_eq rfl, hstep _ _ s (toNat_hdrAByte c)⟩,
    fun c s hr => ⟨_, hr.exec_eq rfl, hstep _ _ s (toNat_hdrDByte c)⟩,
    fun p s hr => ⟨_, hr.exec_eq rfl, hstep _ _ s (toNat_payloadByte p)⟩⟩

/-! ## Whole packets (R249) -/

/-- A header byte, in any state: bit 6 says which payload is awaited (R242). -/
theorem decodeByte_header {k : BitVec 2} (c : BitVec 6) (s : State) (h7 : k.getLsbD 1 = true) :
    decodeByte (k ++ c) s =
      ({ s with decCh := c, decHi := 0,
                decState := if k.getLsbD 0 then .awaitDigitalValue else .awaitAnalogHigh }, none) := by
  have hbit7 : (k ++ c).getLsbD 7 = true := by rw [BitVec.getLsbD_append]; exact h7
  have hbit6 : (k ++ c).getLsbD 6 = k.getLsbD 0 := by rw [BitVec.getLsbD_append]; rfl
  have hc : (k ++ c).extractLsb' 0 6 = c := BitVec.extractLsb'_append_eq_right
  simp only [decodeByte, decodeHeader, hbit7, hbit6, hc, if_true]

theorem decodeByte_hdrAByte (c : BitVec 6) (s : State) :
    decodeByte (hdrAByte c) s = ({ s with decCh := c, decHi := 0, decState := .awaitAnalogHigh }, none) :=
  decodeByte_header c s rfl

theorem decodeByte_hdrDByte (c : BitVec 6) (s : State) :
    decodeByte (hdrDByte c) s = ({ s with decCh := c, decHi := 0, decState := .awaitDigitalValue }, none) :=
  decodeByte_header c s rfl

theorem decodeByte_payloadByte (p : BitVec 7) (s : State) :
    decodeByte (payloadByte p) s = decodePayload p s := by
  have hbit7 : (payloadByte p).getLsbD 7 = false := by rw [payloadByte, BitVec.getLsbD_append]; rfl
  have hp : (payloadByte p).extractLsb' 0 7 = p := BitVec.extractLsb'_append_eq_right
  simp only [decodeByte, hbit7, hp, Bool.false_eq_true, if_false]

/-- s after the decoder gave e and went back to Idle. -/
def afterEvent (e : Event) (s : State) : State :=
  { s with decState := .idle, decCh := 0, decHi := 0, history := s.history ++ [.event e] }

theorem decodeBytes_analogPacket (c : BitVec 6) (h l : BitVec 7) (s : State) :
    decodeBytes [hdrAByte c, payloadByte h, payloadByte l] s =
      (afterEvent (.analog c (BitVec.ofNat 14 (h.toNat * 128 + l.toNat))) s,
        some (.analog c (BitVec.ofNat 14 (h.toNat * 128 + l.toNat)))) := by
  simp only [decodeBytes, decodeByte_hdrAByte, decodeByte_payloadByte, decodePayload, joinGroups_eq_ofNat]
  rfl

theorem decodeBytes_digitalPacket (c : BitVec 6) (v : BitVec 7) (s : State) :
    decodeBytes [hdrDByte c, payloadByte v] s = (afterEvent (.digital c v) s, some (.digital c v)) := by
  simp only [decodeBytes, decodeByte_hdrDByte, decodeByte_payloadByte, decodePayload]
  rfl

/-- Bytes that give an event at the last one answer the event's word. -/
theorem feedDecoder_of_event {bs : List Byte} {e : Event} {s : State}
    (h : decodeBytes bs s = (afterEvent e s, some e)) :
    feedDecoder bs s = complete (eventWord e) (afterEvent e s) := by
  simp only [feedDecoder, h, eventResult]

/-- Settles O32: the header starts the packet afresh in any state, and the last payload byte completes the event. -/
theorem wholePacketGivesItsEvent : Obligations.WholePacketGivesItsEvent := by
  refine ⟨fun c h l s hr => ⟨_, hr.exec_eq rfl, decoderFrame_feedDecoder _ s, ?_⟩,
    fun c v s hr => ⟨_, hr.exec_eq rfl, decoderFrame_feedDecoder _ s, ?_⟩⟩
  · rw [feedDecoder_of_event (decodeBytes_analogPacket c h l s), ← eventWord_analog_groups]
    exact ⟨rfl, rfl, rfl, rfl, portDone_complete _ rfl rfl rfl⟩
  · rw [feedDecoder_of_event (decodeBytes_digitalPacket c v s), ← eventWord_digital]
    exact ⟨rfl, rfl, rfl, rfl, portDone_complete _ rfl rfl rfl⟩

end Sys2Proof.Machine
end

section
/-! PROOF. The encoder's stage and the sampler's operations (spec/42_encoder.md, spec/41_sampler.md): channel operands, the
packet a loaded stage holds, and one equation per branch of a smoothing and of a debounce step. -/

namespace Sys2Proof.Machine

/-! ## Channel operands -/

theorem analogIx_ofNat (k : Fin 6) : analogIx (BitVec.ofNat 4 k) = k := by
  apply Fin.ext
  simp only [analogIx, Fin.val_ofNat, BitVec.toNat_ofNat]
  omega

theorem digitalIx_ofNat (k : Fin 10) : digitalIx (BitVec.ofNat 4 k) = k := by
  apply Fin.ext
  simp only [digitalIx, Fin.val_ofNat, BitVec.toNat_ofNat]
  omega

/-- A channel operand widened to the wire's channel field. -/
theorem setWidth_channel {k : Nat} (hk : k < 16) : (BitVec.ofNat 4 k).setWidth 6 = BitVec.ofNat 6 k := by
  apply BitVec.eq_of_toNat_eq
  simp only [BitVec.toNat_setWidth, BitVec.toNat_ofNat]
  omega

theorem getElem_set_of_ne {α : Type} {n : Nat} {xs : Vector α n} {x : α} {j k : Fin n} (h : j ≠ k) :
    (xs.set k x)[j] = xs[j] :=
  Vector.getElem_set_ne _ _ fun e => h (Fin.ext e.symm)

/-! ## The stage holds the packet it was loaded with (R223) -/

/-- The encoder's header bytes are the wire's (R101, R223). -/
theorem headerByte_analog (ch : BitVec 6) (v : BitVec 14) : headerByte (.analog ch v) = hdrAByte ch := by
  refine BitVec.eq_of_getLsbD_eq fun i hi => ?_
  simp only [headerByte, hdrAByte, BitVec.getLsbD_append, BitVec.getLsbD_or, BitVec.getLsbD_setWidth]
  interval_cases i <;> simp

theorem headerByte_digital (ch : BitVec 6) (v : BitVec 7) : headerByte (.digital ch v) = hdrDByte ch := by
  refine BitVec.eq_of_getLsbD_eq fun i hi => ?_
  simp only [headerByte, hdrDByte, BitVec.getLsbD_append, BitVec.getLsbD_or, BitVec.getLsbD_setWidth]
  interval_cases i <;> simp

/-- The high 7-bit group of an analog value as a number (R73). -/
theorem toNat_highGroup (v : BitVec 14) : ((v >>> 7).setWidth 8).toNat = v.toNat / 128 := by
  rw [BitVec.toNat_setWidth, BitVec.toNat_ushiftRight]
  omega

/-- The low 7-bit group of an analog value as a number (R73). -/
theorem toNat_lowGroup (v : BitVec 14) : ((v &&& 0x7F).setWidth 8).toNat = v.toNat % 128 := by
  have hmask : (0x7F : BitVec 14).toNat = 127 := rfl
  have hlow : v.toNat &&& 127 = v.toNat % 128 := Nat.and_two_pow_sub_one_eq_mod v.toNat 7
  rw [BitVec.toNat_setWidth, BitVec.toNat_and, hmask, hlow]
  omega

theorem stageHolds_encLoad (e : Event) (s : State) : StageHolds e (encLoad e s) := by
  cases e with
  | analog ch v =>
    have hhead := toNat_hdrAByte ch
    rw [← headerByte_analog ch v] at hhead
    exact ⟨hhead, toNat_highGroup v, toNat_lowGroup v, rfl, rfl⟩
  | digital ch v =>
    have hhead := toNat_hdrDByte ch
    rw [← headerByte_digital ch v] at hhead
    exact ⟨hhead, BitVec.toNat_setWidth_of_le (by decide), rfl, rfl⟩

theorem stageHolds_emitSample (e : Event) (s : State) : StageHolds e (emitSample e s) := stageHolds_encLoad e _

/-- Giving a result leaves the stage. -/
theorem StageHolds.complete {e : Event} {s : State} (h : StageHolds e s) (w : CmdWord) :
    StageHolds e (complete w s) := by
  cases e <;> exact h

/-- Settles O25: the body loads the stage, and the operands widen to the event's fields without loss. -/
theorem encodersLoadStage : Obligations.EncodersLoadStage := by
  refine ⟨fun k v s hr => ?_, fun k v s hr => ?_⟩
  · have hexec := hr.exec_eq (f := fun s => complete 0 (encLoad (.analog _ (v.setWidth 14)) s)) rfl
    rw [setWidth_channel (by omega), ← BitVec.ofNat_toNat] at hexec
    exact ⟨_, hexec, (Effect.enca (BitVec.ofNat 4 k) v _).portDone 0, (stageHolds_encLoad _ s).complete 0, rfl⟩
  · have hexec := hr.exec_eq (f := fun s => complete 0 (encLoad (.digital _ (v.setWidth 7)) s)) rfl
    rw [setWidth_channel (by omega), ← BitVec.ofNat_toNat] at hexec
    exact ⟨_, hexec, (Effect.encd (BitVec.ofNat 4 k) v _).portDone 0, (stageHolds_encLoad _ s).complete 0, rfl, rfl⟩

/-! ## Smoothing (R181 to R184) -/

/-- The smoothed value fits its register: it is a mean of two 10-bit values (R184). -/
theorem toNat_smooth {c : Config} (hc : c.Valid) (raw acc : BitVec 10) :
    (smooth c raw acc).toNat = (raw.toNat * c.w + acc.toNat * (c.den - c.w)) / c.den := by
  have hraw := raw.isLt
  have hacc := acc.isLt
  have hmean : raw.toNat * c.w + acc.toNat * (c.den - c.w) ≤ c.den * 1023 :=
    calc raw.toNat * c.w + acc.toNat * (c.den - c.w)
        ≤ 1023 * c.w + 1023 * (c.den - c.w) := by gcongr <;> omega
      _ = c.den * 1023 := by rw [← Nat.mul_add, Nat.add_sub_cancel' hc.w_le_den, Nat.mul_comm]
  rw [smooth, BitVec.toNat_ofNat]
  exact Nat.mod_eq_of_lt (Nat.lt_succ_of_le (Nat.div_le_of_le_mul hmean))

section Steps
variable {s : State}

theorem smoothStep_of_eq {k : Fin 6} {raw : BitVec 10} (h : smooth s.cfg raw s.acc[k] = s.acc[k]) :
    smoothStep k raw s = { s with rawLatest := s.rawLatest.set k raw } := if_pos h

theorem smoothStep_of_ne {k : Fin 6} {raw : BitVec 10} (h : smooth s.cfg raw s.acc[k] ≠ s.acc[k]) :
    smoothStep k raw s =
      emitSample (.analog (BitVec.ofNat 6 k) ((smooth s.cfg raw s.acc[k]).setWidth 14))
        { s with rawLatest := s.rawLatest.set k raw, acc := s.acc.set k (smooth s.cfg raw s.acc[k]) } := if_neg h

theorem debounceStep_of_emits {k : Fin 10} {raw : BitVec 1} (h : SmpdEmits k raw s) :
    debounceStep k raw s =
      emitSample (.digital (BitVec.ofNat 6 k) (raw.setWidth 7))
        { s with rep := s.rep.set k raw, dtimer := s.dtimer.set k (satDec s.cfg.deb) } := if_pos h

theorem debounceStep_of_not_emits {k : Fin 10} {raw : BitVec 1} (h : ¬ SmpdEmits k raw s) :
    debounceStep k raw s = { s with dtimer := s.dtimer.set k (satDec s.dtimer[k]) } := if_neg h

end Steps

/-- Settles O16: the step keeps the accumulator or emits, as the smoothed value equals it or not. -/
theorem smpaSmooths : Obligations.SmpaSmooths := by
  intro k raw s v hcfg hr hv
  have hval : (smooth s.cfg raw s.acc[k]).toNat = v := (toNat_smooth hcfg raw _).trans hv.symm
  have hexec := hr.exec_eq (f := fun s => complete 0 (smoothStep (analogIx (BitVec.ofNat 4 k)) raw s)) rfl
  have hport := (Effect.smpa (s := s) (BitVec.ofNat 4 k) raw).portDone 0
  rw [analogIx_ofNat] at hexec hport
  refine ⟨_, hexec, hport, ?_⟩
  by_cases hsame : smooth s.cfg raw s.acc[k] = s.acc[k]
  · have hacc : s.acc[k].toNat = v := hsame ▸ hval
    rw [smoothStep_of_eq hsame, if_pos hacc.symm]
    exact ⟨rfl, hacc, fun j hj => rfl, rfl⟩
  · have hacc : v ≠ s.acc[k].toNat := hval ▸ fun e => hsame (BitVec.eq_of_toNat_eq e)
    rw [smoothStep_of_ne hsame, if_neg hacc, ← BitVec.ofNat_toNat, hval]
    refine ⟨rfl, by simpa using hval, fun j hj => ?_, (stageHolds_emitSample _ _).complete 0, rfl⟩
    simp [getElem_set_of_ne hj]

/-! ## Debounce (R185, R186) -/

/-- Settles O20: the step emits or counts down, by the old timer and the reported level. -/
theorem smpdDebounces : Obligations.SmpdDebounces := by
  intro k raw s hr
  have hexec := hr.exec_eq (f := fun s => complete 0 (debounceStep (digitalIx (BitVec.ofNat 4 k)) raw s)) rfl
  have hport := (Effect.smpd (s := s) (BitVec.ofNat 4 k) raw).portDone 0
  rw [digitalIx_ofNat] at hexec hport
  refine ⟨_, hexec, hport, ?_⟩
  by_cases hemit : raw ≠ s.rep[k] ∧ s.dtimer[k] = 0
  · rw [debounceStep_of_emits hemit, if_pos hemit, ← BitVec.ofNat_toNat]
    refine ⟨fun j hj => ?_, by simp, by simp [satDec], (stageHolds_emitSample _ _).complete 0, rfl, rfl⟩
    simp [getElem_set_of_ne hj]
  · rw [debounceStep_of_not_emits hemit, if_neg hemit]
    exact ⟨fun j hj => ⟨getElem_set_of_ne hj, rfl⟩, by simp [satDec], rfl⟩

end Sys2Proof.Machine
end

section
/-! PROOF. What comes before an operation's effect (spec/30_encoding.md R118, R127, spec/60_exceptions.md R281 to R283): the
check for an illegal instruction, the wire rows' owner, and the port a sample item reads. -/

namespace Sys2Proof.Machine

/-- The first check refuses whatever the issuer and the block's state (R118, R283). -/
theorem guarded_of_not_wellFormed {i : Instr} {s : State} {body : State → Host.Outcome State Fault Refusal}
    (hw : i.wellFormed = false) : guarded i s body = .next (refuse (.illegalCommand (commandWord i)) s) := by
  simp [guarded, hw]

/-- Settles O40: the first check stops an illegal channel, and the reserved word is refused with no check before it. -/
theorem illegalInstrIsRefusedFirst : Obligations.IllegalInstrIsRefusedFirst := by
  intro i s h
  refine ⟨_, ?_, rfl, rfl, portCleared_refuse (.illegalCommand (commandWord i)) s⟩
  rcases h with hw | ⟨low, rfl⟩
  · have hres : ∀ low, i ≠ .reservedOp0 low := by rintro low rfl; cases hw
    obtain ⟨body, e⟩ := exec_eq_guarded hres s
    exact e.trans (guarded_of_not_wellFormed hw)
  · rfl

/-- A wire row is always legal, and RD's alone (log 10). -/
theorem IsWireRow.wellFormed_and_owners {i : Instr} (h : IsWireRow i) : WellFormed i ∧ owners i = [.rd] := by
  obtain ⟨bs, e⟩ := h
  cases i <;> cases e <;> exact ⟨rfl, rfl⟩

/-- Settles O57: the ownership check raises, since a wire row is RD's alone. -/
theorem wrongAgentOnWireRow : Obligations.WrongAgentOnWireRow := by
  intro i s hwire hrd
  obtain ⟨hw, hown⟩ := hwire.wellFormed_and_owners
  have hnot : owns i s.issuer = false := by simp [owns, hown, hrd]
  have hres : ∀ low, i ≠ .reservedOp0 low := by rintro low rfl; cases hown
  obtain ⟨body, e⟩ := exec_eq_guarded hres s
  obtain ⟨_, hothers⟩ := portCleared_raise (.ownershipViolation i s.issuer) s
  exact ⟨_, e.trans (guarded_of_not_owned hw hnot), by simp, fun hclear => by simp [hclear], rfl, hothers⟩

/-- Settles O47: FG issues the item at the head of its stream, and with the stage empty attempting a port sample is running
the operation with the port's value. -/
theorem portSamplesReadInputsNow : Obligations.PortSamplesReadInputsNow := by
  intro s rest moves hp hstage hrun
  have hempty : ¬ (Agent.fg = .fg ∧ stageBusy s = true) := by simp [hstage]
  have hissue : ∀ it, s.streams.fg = it :: rest →
      step s = attempt .fg it { s with schedule := moves, streams := s.streams.set .fg rest } := fun it hs => by
    rw [step_eq_agentIssue (.inr ⟨hrun, fun _ => hstage⟩)]
    exact agentIssue_presented (presented_of_stream hp hs)
  refine ⟨fun i hs => ?_, fun j hs => ?_⟩
  · exact (hissue _ hs).trans ((attempt_sampleA .fg i _).trans (if_neg hempty))
  · exact (hissue _ hs).trans ((attempt_sampleD .fg j _).trans (if_neg hempty))

end Sys2Proof.Machine
end

section
/-! PROOF. Ring transport (spec/40_ring_transport.md): what each ring operation does once the checks let it through, rings
filled and emptied by many pushes and pops, and what makes room in a full TX ring, in one operation and in a fair run. -/

namespace Sys2Proof.Machine

/-! ## The ring primitives, branch by branch (R141, R143, R145, R147) -/

section Primitives
variable {C : Nat} {r : Ring} {b : Byte}

theorem Ring.pop_of_empty (h : r.head = r.tail) : r.pop C = .empty := by
  simp [Ring.pop, Ring.isEmpty, h]

theorem Ring.pop_of_written (hne : r.head ≠ r.tail) (hb : Memory.read r.buf r.tail = some b) :
    r.pop C = .byte b { r with tail := (r.tail + 1) % C } := by
  simp [Ring.pop, Ring.isEmpty, hne, hb]

theorem Ring.pop_of_unwritten (hne : r.head ≠ r.tail) (hb : Memory.read r.buf r.tail = none) :
    r.pop C = .unwritten r.tail := by
  simp [Ring.pop, Ring.isEmpty, hne, hb]

theorem Ring.isFull_of_eq (h : (r.head + 1) % C = r.tail) : r.isFull C = true := decide_eq_true h

theorem Ring.isFull_of_ne (h : (r.head + 1) % C ≠ r.tail) : r.isFull C = false := decide_eq_false h

theorem Ring.pushedByte_put (C : Nat) (b : Byte) (r : Ring) : PushedByte C b r (r.put C b) :=
  ⟨Memory.read_write_same _ _ _, fun _ hk => Memory.read_write_other _ _ hk, rfl, rfl⟩

@[simp] theorem Ring.occ_flush (C : Nat) (r : Ring) : r.flush.occ C = 0 := by simp [Ring.occ]

/-- Occupancy is (head − tail) mod C over the integers (R145). -/
theorem RingOk.cast_occ (h : RingOk C r) : (r.occ C : Int) = ((r.head : Int) - r.tail) % C := by
  have hle : r.tail ≤ r.head + C := by have := h.tail_lt; omega
  rw [Ring.occ, Int.natCast_mod, Nat.cast_sub hle, Nat.cast_add, add_sub_right_comm, Int.add_emod_right]

/-- A pop's result word as a number (R119). -/
theorem popWord_eq_ofNat (b : Byte) : popWord b = BitVec.ofNat 24 (256 + b.toNat) := by
  have hb := b.isLt
  have hor : 256 ||| b.toNat = 256 + b.toNat := (Nat.two_pow_add_eq_or_of_lt (i := 8) hb 1).symm
  apply BitVec.eq_of_toNat_eq
  rw [popWord, BitVec.toNat_or, BitVec.toNat_setWidth_of_le (by decide), BitVec.toNat_ofNat, BitVec.toNat_ofNat,
    Nat.mod_eq_of_lt (by decide), hor]
  omega

end Primitives

/-! ## The ring operations, once the checks let them through -/

section Operations
variable {s : State} {b : Byte}

theorem exec_rxpush_of_full (hr : Ready (.rxpush b) s) (hfull : s.rx.isFull s.cfg.cRx = true) :
    exec (.rxpush b) s = .next (complete 0 (record (.rxDrop b) s)) := by
  simp only [exec, execRxpush, hr.pass, hfull, if_true]

theorem exec_rxpush_of_room (hr : Ready (.rxpush b) s) (hroom : s.rx.isFull s.cfg.cRx = false) :
    exec (.rxpush b) s = .next (complete 1 { s with rx := s.rx.put s.cfg.cRx b }) := by
  simp only [exec, execRxpush, hr.pass, hroom, Bool.false_eq_true, if_false]

theorem exec_txpush_of_full (hr : Ready (.txpush b) s) (hfull : s.tx.isFull s.cfg.cTx = true) :
    exec (.txpush b) s = .next (hold (.txpush b) .txFull s) := by
  simp only [exec, execTxpush, hr.pass, hfull, if_true]

theorem exec_txpush_of_room (hr : Ready (.txpush b) s) (hroom : s.tx.isFull s.cfg.cTx = false) :
    exec (.txpush b) s = .next (complete 0 { s with tx := s.tx.put s.cfg.cTx b }) := by
  simp only [exec, execTxpush, hr.pass, hroom, Bool.false_eq_true, if_false]

theorem exec_rxpop_of_empty (hr : Ready .rxpop s) (h : s.rx.head = s.rx.tail) :
    exec .rxpop s = .next (complete 0 s) := by
  simp only [exec, execRxpop, hr.pass, Ring.pop_of_empty h]

theorem exec_rxpop_of_written (hr : Ready .rxpop s) (hne : s.rx.head ≠ s.rx.tail)
    (hb : Memory.read s.rx.buf s.rx.tail = some b) :
    exec .rxpop s =
      .next (complete (popWord b) { s with rx := { s.rx with tail := (s.rx.tail + 1) % s.cfg.cRx } }) := by
  simp only [exec, execRxpop, hr.pass, Ring.pop_of_written hne hb]

theorem exec_rxpop_of_unwritten (hr : Ready .rxpop s) (hne : s.rx.head ≠ s.rx.tail)
    (hb : Memory.read s.rx.buf s.rx.tail = none) : exec .rxpop s = .fault (.unwrittenSlot .rx s.rx.tail) := by
  simp only [exec, execRxpop, hr.pass, Ring.pop_of_unwritten hne hb]

theorem exec_txpop_of_empty (hr : Ready .txpop s) (h : s.tx.head = s.tx.tail) :
    exec .txpop s = .next (complete 0 s) := by
  simp only [exec, execTxpop, hr.pass, Ring.pop_of_empty h]

theorem exec_txpop_of_written (hr : Ready .txpop s) (hne : s.tx.head ≠ s.tx.tail)
    (hb : Memory.read s.tx.buf s.tx.tail = some b) :
    exec .txpop s =
      .next (complete (popWord b) (record (.txOut b)
        { s with tx := { s.tx with tail := (s.tx.tail + 1) % s.cfg.cTx }, wire := s.wire ++ [b] })) := by
  simp only [exec, execTxpop, hr.pass, Ring.pop_of_written hne hb]

theorem exec_txpop_of_unwritten (hr : Ready .txpop s) (hne : s.tx.head ≠ s.tx.tail)
    (hb : Memory.read s.tx.buf s.tx.tail = none) : exec .txpop s = .fault (.unwrittenSlot .tx s.tx.tail) := by
  simp only [exec, execTxpop, hr.pass, Ring.pop_of_unwritten hne hb]

theorem exec_rxflush (hr : Ready .rxflush s) :
    exec .rxflush s = .next (complete 0 { s with rx := s.rx.flush }) :=
  hr.exec_eq (f := fun s => complete 0 { s with rx := s.rx.flush }) rfl

theorem exec_txflush (hr : Ready .txflush s) :
    exec .txflush s = .next (complete 0 { s with tx := s.tx.flush }) :=
  hr.exec_eq (f := fun s => complete 0 { s with tx := s.tx.flush }) rfl

end Operations

/-- Settles O6: the two branches of RingPush. -/
theorem rxpushStoresOrDrops : Obligations.RxpushStoresOrDrops := by
  intro b s hr
  split
  case isTrue hfull =>
    exact ⟨_, exec_rxpush_of_full hr (Ring.isFull_of_eq hfull), rfl, portDone_complete 0 rfl rfl rfl⟩
  case isFalse hroom =>
    exact ⟨_, exec_rxpush_of_room hr (Ring.isFull_of_ne hroom), Ring.pushedByte_put _ b s.rx, rfl,
      portDone_complete 1 rfl rfl rfl⟩

/-- Settles O10: the two branches of RingPush, the full one a hold. -/
theorem txpushStoresOrHolds : Obligations.TxpushStoresOrHolds := by
  intro b s hr
  split
  case isTrue hfull =>
    exact ⟨_, exec_txpush_of_full hr (Ring.isFull_of_eq hfull), held_hold _ _ s⟩
  case isFalse hroom =>
    exact ⟨_, exec_txpush_of_room hr (Ring.isFull_of_ne hroom), Ring.pushedByte_put _ b s.tx, rfl,
      portDone_complete 0 rfl rfl rfl⟩

/-- Settles O7: the three things a pop finds. -/
theorem rxpopTakesOldest : Obligations.RxpopTakesOldest := by
  intro s hr
  refine ⟨fun hempty => ?_, fun b hne hb => ?_, exec_rxpop_of_unwritten hr⟩
  · exact ⟨_, exec_rxpop_of_empty hr hempty, rfl, portDone_complete 0 rfl rfl rfl⟩
  · rw [← popWord_eq_ofNat]
    exact ⟨_, exec_rxpop_of_written hr hne hb, ⟨rfl, rfl, rfl⟩, rfl, portDone_complete _ rfl rfl rfl⟩

/-- Settles O11: the three things a pop finds; a byte found also goes to the history and the wire. -/
theorem txpopSendsOldest : Obligations.TxpopSendsOldest := by
  intro s hr
  refine ⟨fun hempty => ?_, fun b hne hb => ?_, exec_txpop_of_unwritten hr⟩
  · exact ⟨_, exec_txpop_of_empty hr hempty, rfl, portDone_complete 0 rfl rfl rfl⟩
  · rw [← popWord_eq_ofNat]
    exact ⟨_, exec_txpop_of_written hr hne hb, ⟨rfl, rfl, rfl⟩, rfl, portDone_complete _ rfl rfl rfl⟩

/-- Settles O8: the answer is the occupancy, which a ring in order has below C. -/
theorem availCountsUnread : Obligations.AvailCountsUnread := by
  intro s hrx htx _ _
  refine ⟨fun hr => ?_, fun hr => ?_⟩
  · exact ⟨_, hr.exec_eq (f := fun s => complete (BitVec.ofNat 24 (s.rx.occ s.cfg.cRx)) s) rfl, rfl, _,
      portDone_complete _ rfl rfl rfl, hrx.occ_lt, hrx.cast_occ⟩
  · exact ⟨_, hr.exec_eq (f := fun s => complete (BitVec.ofNat 24 (s.tx.occ s.cfg.cTx)) s) rfl, rfl, _,
      portDone_complete _ rfl rfl rfl, htx.occ_lt, htx.cast_occ⟩

/-- Settles O9: RingFlush writes tail alone. -/
theorem flushEmptiesRing : Obligations.FlushEmptiesRing := by
  refine fun s => ⟨fun hr => ?_, fun hr => ?_⟩
  · exact ⟨_, exec_rxflush hr, rfl, Ring.occ_flush _ _, rfl, portDone_complete 0 rfl rfl rfl⟩
  · exact ⟨_, exec_txflush hr, rfl, Ring.occ_flush _ _, rfl, portDone_complete 0 rfl rfl rfl⟩

/-! ## Many pushes and many pops (R149, R150) -/

/-- Cutting to n at once or after an earlier cut to n keeps the same elements. -/
theorem take_of_take_append {α : Type} (n : Nat) (xs ys : List α) :
    (xs.take n ++ ys).take n = (xs ++ ys).take n := by
  have hleft : n - min n xs.length = n - xs.length := by omega
  simp [List.take_append, List.take_take, hleft]

section Many
variable {C : Nat} {r : Ring}

/-- Room is occupancy below C − 1 (R36). -/
theorem RingOk.isFull_eq_decide (h : RingOk C r) : r.isFull C = !decide (r.occ C < C - 1) := by
  have hfull := Ring.isFull_iff_occ h.head_lt h.tail_lt
  have hocc := h.occ_lt
  rw [Bool.eq_iff_iff, hfull, Bool.not_eq_true', decide_eq_false_iff_not]
  omega

/-- A push is accepted while fewer than C − 1 bytes are unread. -/
theorem RingOk.push_accepted (h : RingOk C r) (b : Byte) : (r.push C b).1 = decide (r.occ C < C - 1) := by
  have hfull := h.isFull_eq_decide
  cases hd : decide (r.occ C < C - 1) <;> rw [hd] at hfull
  · rw [Ring.push_of_full b hfull]
  · rw [Ring.push_of_room b hfull]

theorem RingOk.push (h : RingOk C r) (b : Byte) : RingOk C (r.push C b).2 := by
  cases hf : r.isFull C with
  | true => rw [Ring.push_of_full b hf]; exact h
  | false => rw [Ring.push_of_room b hf]; exact h.put b hf

/-- A push keeps the first C − 1 bytes of the queue with its byte behind. -/
theorem RingOk.contents_push (h : RingOk C r) (b : Byte) :
    (r.push C b).2.contents C = (r.contents C ++ [some b]).take (C - 1) := by
  have hiff := Ring.isFull_iff_occ h.head_lt h.tail_lt
  have hocc := h.occ_lt
  cases hf : r.isFull C with
  | true =>
    rw [Ring.push_of_full b hf, List.take_left' ((Ring.length_contents C r).trans (hiff.mp hf))]
  | false =>
    have hne : r.occ C ≠ C - 1 := fun e => by simp [hiff.mpr e] at hf
    rw [Ring.push_of_room b hf, h.contents_put b hf, List.take_of_length_le]
    simp only [List.length_append, Ring.length_contents, List.length_singleton]
    omega

theorem RingOk.occ_push (h : RingOk C r) (b : Byte) :
    (r.push C b).2.occ C = min (C - 1) (r.occ C + 1) := by
  simpa using congrArg List.length (h.contents_push b)

theorem RingOk.pushMany (h : RingOk C r) (bs : List Byte) : RingOk C (Ring.pushMany C bs r).2 := by
  induction bs generalizing r with
  | nil => exact h
  | cons b bs ih => exact ih (h.push b)

/-- The queue after many pushes: the first C − 1 of the bytes before and the bytes pushed. -/
theorem RingOk.contents_pushMany (h : RingOk C r) (bs : List Byte) :
    (Ring.pushMany C bs r).2.contents C = (r.contents C ++ bs.map some).take (C - 1) := by
  induction bs generalizing r with
  | nil =>
    have hocc := h.occ_lt
    rw [List.map_nil, List.append_nil, List.take_of_length_le (by rw [Ring.length_contents]; omega)]
    rfl
  | cons b bs ih =>
    calc (Ring.pushMany C bs (r.push C b).2).2.contents C
        = ((r.contents C ++ [some b]).take (C - 1) ++ bs.map some).take (C - 1) := by
          rw [ih (h.push b), h.contents_push b]
      _ = (r.contents C ++ (b :: bs).map some).take (C - 1) := by simp [take_of_take_append]

/-- Of many pushes those are accepted that find fewer than C − 1 bytes unread. -/
theorem RingOk.pushMany_accepted (h : RingOk C r) {bs : List Byte} {k : Nat} (hk : k < bs.length) :
    (Ring.pushMany C bs r).1[k]? = some (decide (r.occ C + k < C - 1)) := by
  induction bs generalizing r k with
  | nil => simp at hk
  | cons b bs ih =>
    cases k with
    | zero => exact congrArg some (h.push_accepted b)
    | succ k =>
      have hiff : min (C - 1) (r.occ C + 1) + k < C - 1 ↔ r.occ C + (k + 1) < C - 1 := by omega
      have hrest := ih (h.push b) (Nat.lt_of_succ_lt_succ hk)
      rwa [h.occ_push, decide_eq_decide.mpr hiff] at hrest

/-- Popping all unread bytes returns them oldest first and leaves the ring empty. -/
theorem RingOk.popMany_contents (h : RingOk C r) {bs : List Byte} (hq : r.contents C = bs.map some) :
    ∃ r', Ring.popMany C bs.length r = some (bs, r') ∧ r'.head = r'.tail := by
  induction bs generalizing r with
  | nil => exact ⟨r, rfl, h.contents_eq_nil_iff.mp hq⟩
  | cons b bs ih =>
    obtain ⟨_, r₁, hb, hpop, hok, hrest⟩ := h.pop_front hq
    cases hb
    obtain ⟨r', hmany, hempty⟩ := ih hok hrest
    exact ⟨r', by simp [Ring.popMany, hpop, hmany], hempty⟩

/-- Settles O13: as many bytes as fit are all kept, in order, and pops take them from the front. -/
theorem ringReturnsBytesInOrder : Obligations.RingReturnsBytesInOrder := by
  intro C r bs h hempty hlen
  refine (h.pushMany bs).popMany_contents ?_
  rw [h.contents_pushMany, h.contents_eq_nil_iff.mpr hempty, List.nil_append,
    List.take_of_length_le (by simpa using hlen)]

/-- Settles O14: an empty ring has C − 1 places, taken by the first bytes pushed. -/
theorem ringDropsBeyondCapacity : Obligations.RingDropsBeyondCapacity := by
  intro C r bs h hempty
  refine ⟨fun k hk => ?_, ?_⟩
  · rw [h.pushMany_accepted hk, h.occ_eq_zero_iff.mpr hempty, Nat.zero_add]
    rfl
  · rw [h.contents_pushMany, h.contents_eq_nil_iff.mpr hempty, List.nil_append, List.map_take]

end Many

/-! ## Room in a full TX ring (R156) -/

section Room
variable {C : Nat} {r : Ring}

/-- A full ring of at least two slots is not empty. -/
theorem Ring.ne_of_full (hC : 2 ≤ C) (hfull : r.isFull C = true) : r.head ≠ r.tail := by
  have htail : (r.head + 1) % C = r.tail := of_decide_eq_true hfull
  have hlt : (r.head + 1) % C < C := Nat.mod_lt _ (by omega)
  intro he
  rw [Ring.succ_mod (by omega)] at htail
  split at htail <;> omega

/-- With tail one slot on, a full ring has room. -/
theorem Ring.room_of_popped (hC : 2 ≤ C) (hfull : r.isFull C = true) :
    Ring.isFull C { r with tail := (r.tail + 1) % C } = false := by
  have htail : (r.head + 1) % C = r.tail := of_decide_eq_true hfull
  have hlt : (r.head + 1) % C < C := Nat.mod_lt _ (by omega)
  refine Ring.isFull_of_ne ?_
  simp only [htail, Ring.succ_mod (htail ▸ hlt)]
  split <;> omega

theorem RingOk.room_of_flushed (h : RingOk C r) (hC : 2 ≤ C) : r.flush.isFull C = false := by
  refine Ring.isFull_of_ne ?_
  simp only [Ring.flush_head, Ring.flush_tail, Ring.succ_mod h.head_lt]
  split <;> omega

end Room

section FullTx
variable {s t : State}

/-- A TXPOP that goes on from a full ring has taken a byte and made room. -/
theorem room_of_exec_txpop (hC : 2 ≤ s.cfg.cTx) (hfull : s.tx.isFull s.cfg.cTx = true) (hr : Ready .txpop s)
    (h : exec .txpop s = .next t) : t.tx.isFull t.cfg.cTx = false := by
  have hne := Ring.ne_of_full hC hfull
  cases hb : Memory.read s.tx.buf s.tx.tail with
  | none => rw [exec_txpop_of_unwritten hr hne hb] at h; cases h
  | some b =>
    rw [exec_txpop_of_written hr hne hb] at h
    cases h
    exact Ring.room_of_popped hC hfull

/-- A TXPUSH is performed only with room (R155). -/
theorem Effect.room_of_txpush {u : State} {b : Byte} (h : Effect s (.txpush b) u) :
    s.tx.isFull s.cfg.cTx = false := by
  cases h with
  | txPut _ room => exact room

/-- An operation after which a full TX ring has room is one of TXI's two that move its tail. -/
theorem tx_lifted_by_txi {i : Instr} (hfull : s.tx.isFull s.cfg.cTx = true) (h : exec i s = .next t)
    (hroom : t.tx.isFull t.cfg.cTx = false) : (i = .txpop ∨ i = .txflush) ∧ s.issuer = .txi := by
  cases exec_next h with
  | refused | raised | held => simp [hfull] at hroom
  | performed w u ready effect =>
    cases effect.writes with
    | txpush b buf head => simp [effect.room_of_txpush] at hfull
    | txpop => exact ⟨.inl rfl, ready.issuer_eq rfl⟩
    | txflush => exact ⟨.inr rfl, ready.issuer_eq rfl⟩
    | _ => simp [hfull] at hroom

end FullTx

/-- Settles O15: of the operations that write the TX ring TXPUSH needs room, and the other two are TXI's and move tail. -/
theorem txFullLiftedByTxiOnly : Obligations.TxFullLiftedByTxiOnly := by
  intro s hok hC hfull
  refine ⟨fun i t h hroom => tx_lifted_by_txi hfull h hroom, fun hr => ?_, fun hr => ?_⟩
  · have hne := Ring.ne_of_full hC hfull
    obtain ⟨b, hb⟩ := hok.pop_written hne
    have hexec := exec_txpop_of_written hr hne hb
    exact ⟨_, hexec, room_of_exec_txpop hC hfull hr hexec⟩
  · exact ⟨_, exec_txflush hr, hok.room_of_flushed hC⟩

/-! ## Fair runs (R295) -/

theorem runMove_recordKept {m : Move} {s t : State} (h : runMove m s = .next t) : RecordKept s t := by
  obtain ⟨u, v, hbefore, hblock, hafter⟩ := runMove_next h
  exact (hbefore.recordKept.trans hblock.recordKept).trans hafter.recordKept

theorem Run.cfg_eq (r : Run) (n : Nat) : (r.state n).cfg = (r.state 0).cfg := by
  induction n with
  | zero => rfl
  | succ n ih => exact (runMove_recordKept (r.steps n)).cfg.trans ih

/-- A TXPOP that heads TXI's stream with nothing pending passes the checks, so where it goes on from a full TX ring it
makes room. -/
theorem room_of_agentIssue_txpop {s t : State} {c : Code} {rest : List Item} (hC : 2 ≤ s.cfg.cTx)
    (hfull : s.tx.isFull s.cfg.cTx = true) (hp : s.pending.txi = none) (hs : s.streams.txi = .code c :: rest)
    (hd : decode c = .ok .txpop) (h : agentIssue .txi s = .next t) : t.tx.isFull t.cfg.cTx = false := by
  rw [agentIssue_presented (presented_of_stream (a := .txi) hp hs), attempt_code _ hd] at h
  exact room_of_exec_txpop (s := { s with streams := s.streams.set .txi rest, issuer := .txi }) hC hfull
    ⟨rfl, rfl, nofun, nofun⟩ h

/-- TXI's TXPOP in a run makes room in a full TX ring. -/
theorem PopsTx.room {r : Run} {n : Nat} (h : PopsTx r n) (hC : 2 ≤ (r.state n).cfg.cTx)
    (hfull : (r.state n).tx.isFull (r.state n).cfg.cTx = true) :
    (r.state (n + 1)).tx.isFull (r.state (n + 1)).cfg.cTx = false := by
  obtain ⟨hmove, hp, c, rest, hs, hd⟩ := h
  have hstep := r.steps n
  rcases hmove with e | e <;> rw [e] at hstep
  · exact room_of_agentIssue_txpop hC hfull hp hs hd ((agentTurn_of_stage_empty (a := .txi) nofun).symm.trans hstep)
  · exact room_of_agentIssue_txpop hC hfull hp hs hd hstep

/-- FG's push is enabled as soon as the TX ring has room. -/
theorem enabled_of_pushIsNext {s : State} (hnext : PushIsNext s) (hroom : s.tx.isFull s.cfg.cTx = false) :
    Enabled .fg s := by
  cases hstage : stageBusy s with
  | true => exact .inl ⟨rfl, hstage, hroom⟩
  | false =>
    obtain ⟨it, s', b, hp, hi⟩ := hnext.resolve_left (by simp [hstage])
    obtain ⟨st, rfl⟩ := presented_frame hp
    have hready : Ready (.txpush b) { s with streams := st, issuer := .fg } := ⟨rfl, rfl, nofun, fun _ => hstage⟩
    exact .inr ⟨it, _, _, hp, hi, hready, _, exec_txpush_of_room hready hroom, rfl⟩

/-- In a fair run FG does not hold TxFull for ever: TXI would pop, and the pop makes room. -/
theorem Fair.not_holdsTxFull {r : Run} (hfair : Fair r) (hC : 2 ≤ (r.state 0).cfg.cTx) (n : Nat) :
    ∃ k ≥ n, ¬ HoldsTxFull (r.state k) := by
  by_contra hall
  have hholds : ∀ k ≥ n, HoldsTxFull (r.state k) := fun k hk => not_not.mp fun hnot => hall ⟨k, hk, hnot⟩
  obtain ⟨k, hk, hpops⟩ := hfair.2 ⟨n, hholds⟩ n
  have hroom := hpops.room (by rwa [r.cfg_eq k]) (hholds k hk).1
  obtain ⟨hfull, _⟩ := hholds (k + 1) (by omega)
  simp [hroom] at hfull

/-- Settles O59: with the hold lifted again and again, a push that stays next is enabled infinitely often, and fairness has
it performed. -/
theorem fairRunLiftsTxFull : Obligations.FairRunLiftsTxFull := by
  intro r hfair hC
  refine ⟨hfair.not_holdsTxFull hC, fun ⟨m, hnext⟩ => hfair.1 .fg fun n => ?_⟩
  obtain ⟨k, hk, hnot⟩ := hfair.not_holdsTxFull hC (max m n)
  have hpush := hnext k (le_of_max_le_left hk)
  have hroom : (r.state k).tx.isFull (r.state k).cfg.cTx = false :=
    Bool.eq_false_iff.mpr fun hfull => hnot ⟨hfull, hpush⟩
  exact ⟨k, le_of_max_le_right hk, enabled_of_pushIsNext hpush hroom⟩

end Sys2Proof.Machine
end

section
/-! PROOF. The sampler over several steps (spec/41_sampler.md): smoothing in closed form and settled, debouncing as a
countdown of the timer, the activity indicator as a countdown of act_timer. -/

namespace Sys2Proof.Machine

/-! ## Smoothing in closed form (R184, R194) -/

section Smoothing
variable {c : Config} {raw acc : BitVec 10}

/-- A smoothed value is no less than what both its operands reach. -/
theorem le_smooth {m : Nat} (hc : c.Valid) (hraw : m ≤ raw.toNat) (hacc : m ≤ acc.toNat) :
    m ≤ (smooth c raw acc).toNat := by
  rw [toNat_smooth hc, Nat.le_div_iff_mul_le (hc.w_pos.trans_le hc.w_le_den)]
  calc m * c.den = m * c.w + m * (c.den - c.w) := by rw [← Nat.mul_add, Nat.add_sub_cancel' hc.w_le_den]
    _ ≤ raw.toNat * c.w + acc.toNat * (c.den - c.w) := by gcongr

/-- The numerator of the mean is bounded as its operands are. -/
theorem smoothing_numerator_le {m : Nat} (hc : c.Valid) (hraw : raw.toNat ≤ m) (hacc : acc.toNat ≤ m) :
    raw.toNat * c.w + acc.toNat * (c.den - c.w) ≤ m * c.den :=
  calc raw.toNat * c.w + acc.toNat * (c.den - c.w)
      ≤ m * c.w + m * (c.den - c.w) := by gcongr
    _ = m * c.den := by rw [← Nat.mul_add, Nat.add_sub_cancel' hc.w_le_den]

theorem smooth_le {m : Nat} (hc : c.Valid) (hraw : raw.toNat ≤ m) (hacc : acc.toNat ≤ m) :
    (smooth c raw acc).toNat ≤ m := by
  rw [toNat_smooth hc]
  exact Nat.div_le_of_le_mul (Nat.mul_comm m c.den ▸ smoothing_numerator_le hc hraw hacc)

/-- From below, the numerator is acc's own share and W parts of the gap. -/
theorem smooth_from_below (hc : c.Valid) (h : acc.toNat ≤ raw.toNat) :
    (smooth c raw acc).toNat = acc.toNat + (raw.toNat - acc.toNat) * c.w / c.den := by
  obtain ⟨gap, hgap⟩ := Nat.exists_eq_add_of_le h
  obtain ⟨rest, hrest⟩ := Nat.exists_eq_add_of_le hc.w_le_den
  have hden : 0 < c.den := hc.w_pos.trans_le hc.w_le_den
  have hnum : raw.toNat * c.w + acc.toNat * (c.den - c.w) = (raw.toNat - acc.toNat) * c.w + c.den * acc.toNat := by
    rw [hgap, hrest, Nat.add_sub_cancel_left, Nat.add_sub_cancel_left]
    ring
  rw [toNat_smooth hc, hnum, Nat.add_mul_div_left _ _ hden, Nat.add_comm]

/-- From above, the numerator is acc's own share less W parts of the gap, and the floor makes the loss a ceiling. -/
theorem smooth_from_above (hc : c.Valid) (h : raw.toNat < acc.toNat) :
    (smooth c raw acc).toNat = acc.toNat - ((acc.toNat - raw.toNat) * c.w + c.den - 1) / c.den := by
  obtain ⟨gap, hgap⟩ := Nat.exists_eq_add_of_le h.le
  obtain ⟨rest, hrest⟩ := Nat.exists_eq_add_of_le hc.w_le_den
  have hden : 0 < c.den := hc.w_pos.trans_le hc.w_le_den
  have hloss : 0 < gap * c.w := Nat.mul_pos (by omega) hc.w_pos
  have hle : gap * c.w ≤ c.den * acc.toNat := by
    rw [Nat.mul_comm c.den]
    exact Nat.mul_le_mul (by omega) hc.w_le_den
  have hnum : raw.toNat * c.w + acc.toNat * (c.den - c.w) = c.den * acc.toNat - (gap * c.w - 1 + 1) := by
    rw [Nat.sub_add_cancel hloss, eq_tsub_iff_add_eq_of_le hle, hgap, hrest, Nat.add_sub_cancel_left]
    ring
  rw [toNat_smooth hc, hnum, Nat.mul_sub_div _ _ _ (by omega), ← Nat.add_div_right _ hden, hgap,
    Nat.add_sub_cancel_left, Nat.sub_add_comm hloss]

/-- From above the loss is at least 1: smoothing descends strictly. -/
theorem smooth_lt_from_above (hc : c.Valid) (h : raw.toNat < acc.toNat) : (smooth c raw acc).toNat < acc.toNat := by
  have hden : 0 < c.den := hc.w_pos.trans_le hc.w_le_den
  have hloss : 0 < (acc.toNat - raw.toNat) * c.w := Nat.mul_pos (by omega) hc.w_pos
  rw [smooth_from_above hc h]
  exact Nat.sub_lt (by omega) (Nat.div_pos (by omega) hden)

end Smoothing

/-- Settles O17: the mean lies between its operands, and its numerator is bounded by the largest raw value's. -/
theorem smoothingStaysBetween : Obligations.SmoothingStaysBetween := by
  intro c raw acc hc
  have hnum := smoothing_numerator_le hc (Nat.le_of_lt_succ raw.isLt) (Nat.le_of_lt_succ acc.isLt)
  exact ⟨toNat_smooth hc raw acc, le_smooth hc (min_le_left _ _) (min_le_right _ _),
    smooth_le hc (le_max_left _ _) (le_max_right _ _), hnum, rfl, by decide⟩

/-- Settles O18: the closed forms; from below there is no event exactly when the gained part is 0. -/
theorem smoothingClosedForms : Obligations.SmoothingClosedForms := by
  intro c raw acc hc
  have hden : 0 < c.den := hc.w_pos.trans_le hc.w_le_den
  refine ⟨fun h => ⟨smooth_from_below hc h, ?_⟩, fun h => ⟨smooth_from_above hc h, smooth_lt_from_above hc h⟩⟩
  rw [← BitVec.toNat_inj, smooth_from_below hc h, Nat.add_eq_left, Nat.div_eq_zero_iff_lt hden]

/-! ## A steady reading settles (R194) -/

section Settling
variable (k : Fin 6) (raw : BitVec 10)

/-- A smoothing step leaves the smoothed value in the accumulator, whether it emits or not. -/
theorem smoothStep_acc (s : State) : (smoothStep k raw s).acc[k] = smooth s.cfg raw s.acc[k] := by
  by_cases h : smooth s.cfg raw s.acc[k] = s.acc[k]
  · rw [smoothStep_of_eq h, h]
  · rw [smoothStep_of_ne h]
    simp

theorem smoothStep_cfg (s : State) : (smoothStep k raw s).cfg = s.cfg := by
  obtain ⟨_, _, _, _, _, _, e⟩ := smoothStep_frame k raw s
  rw [e]

/-- Smoothing steps of one channel iterate the smoothing of its accumulator. -/
theorem smoothRun_acc (n : Nat) (s : State) : (smoothRun k raw n s).acc[k] = (smooth s.cfg raw)^[n] s.acc[k] := by
  induction n generalizing s with
  | zero => rfl
  | succ n ih => rw [smoothRun, ih, smoothStep_acc, smoothStep_cfg, Function.iterate_succ_apply]

variable {raw} {acc : BitVec 10}

/-- With the defaults one step from below gains a tenth of the gap. -/
theorem smooth_default_from_below (h : acc.toNat ≤ raw.toNat) :
    (smooth .default raw acc).toNat = acc.toNat + (raw.toNat - acc.toNat) * 100 / 1000 :=
  smooth_from_below config_default_valid h

/-- From below each step gains at least 1 while the gap is over 9. -/
theorem iterate_smooth_from_below (h : acc.toNat ≤ raw.toNat) (n : Nat) :
    ((smooth .default raw)^[n] acc).toNat ≤ raw.toNat ∧
    raw.toNat ≤ ((smooth .default raw)^[n] acc).toNat + max 9 (1023 - n) := by
  induction n with
  | zero =>
    rw [Function.iterate_zero_apply]
    omega
  | succ n ih =>
    obtain ⟨hle, hgap⟩ := ih
    rw [Function.iterate_succ_apply', smooth_default_from_below hle]
    omega

/-- From above each step descends by at least 1 until it is at the reading, where it stays. -/
theorem iterate_smooth_from_above (h : raw.toNat ≤ acc.toNat) (n : Nat) :
    raw.toNat ≤ ((smooth .default raw)^[n] acc).toNat ∧
    ((smooth .default raw)^[n] acc).toNat ≤ raw.toNat + (1023 - n) := by
  induction n with
  | zero =>
    rw [Function.iterate_zero_apply]
    omega
  | succ n ih =>
    obtain ⟨hle, hgap⟩ := ih
    rw [Function.iterate_succ_apply']
    refine ⟨le_smooth config_default_valid le_rfl hle, ?_⟩
    rcases hle.eq_or_lt with heq | hlt
    · exact (smooth_le config_default_valid le_rfl heq.ge).trans (Nat.le_add_right _ _)
    · have hdown := smooth_lt_from_above config_default_valid hlt
      omega

end Settling

/-- Settles O19: 1023 steps close any gap, to the last 9 from below and wholly from above. -/
theorem smoothingSettles : Obligations.SmoothingSettles := by
  intro k raw s n hcfg hn
  simp only [smoothRun_acc, hcfg, Function.iterate_succ_apply']
  refine ⟨fun h => ?_, fun h => ?_⟩
  · obtain ⟨hle, hgap⟩ := iterate_smooth_from_below h n
    have hclose : raw.toNat ≤ ((smooth .default raw)^[n] s.acc[k]).toNat + 9 := by omega
    refine ⟨hle, hclose, BitVec.eq_of_toNat_eq ?_⟩
    rw [smooth_default_from_below hle]
    omega
  · obtain ⟨hle, hgap⟩ := iterate_smooth_from_above h.le n
    exact BitVec.eq_of_toNat_eq (by omega)

/-! ## Debouncing over several steps (R188, R189) -/

section Debouncing
variable {k : Fin 10} {raw : BitVec 1}

/-- While the timer runs no level emits: the steps only count it down. -/
theorem debounceRun_of_timer_running {raws : List (BitVec 1)} {s : State} (h : raws.length ≤ s.dtimer[k]) :
    debounceRun k raws s = { s with dtimer := s.dtimer.set k (s.dtimer[k] - raws.length) } := by
  induction raws generalizing s with
  | nil => simp [debounceRun]
  | cons raw raws ih =>
    rw [List.length_cons] at h
    have hquiet : ¬ SmpdEmits k raw s := fun ⟨_, hzero⟩ => by omega
    have hrest : raws.length ≤ (s.dtimer.set k (satDec s.dtimer[k]))[k] := by
      rw [Fin.getElem_fin, Vector.getElem_set_self]
      exact Nat.le_sub_one_of_lt h
    rw [debounceRun, debounceStep_of_not_emits hquiet, ih hrest]
    simp [satDec, Nat.sub_sub, Nat.add_comm 1]

theorem debounceRun_append (raws : List (BitVec 1)) (next : BitVec 1) (s : State) :
    debounceRun k (raws ++ [next]) s = debounceStep k next (debounceRun k raws s) := by
  induction raws generalizing s with
  | nil => rfl
  | cons raw raws ih => exact ih _

/-- An emission reloads the timer with DEB - 1. -/
theorem SmpdEmits.timer_reloaded {s : State} (h : SmpdEmits k raw s) :
    (debounceStep k raw s).dtimer[k] = s.cfg.deb - 1 := by
  simp [debounceStep_of_emits h, satDec]

/-- With the timer at 0 a level is reported, and an event recorded exactly if it differs from the reported one. -/
theorem debounceStep_of_timer_zero (raw : BitVec 1) {s : State} (h : s.dtimer[k] = 0) :
    (debounceStep k raw s).rep[k] = raw ∧
    (debounceStep k raw s).history =
      if raw = s.rep[k] then s.history
      else s.history ++ [.emit (.digital (BitVec.ofNat 6 k) (BitVec.ofNat 7 raw.toNat))] := by
  by_cases hsame : raw = s.rep[k]
  · rw [debounceStep_of_not_emits fun e => e.1 hsame, if_pos hsame]
    exact ⟨hsame.symm, rfl⟩
  · rw [debounceStep_of_emits ⟨hsame, h⟩, if_neg hsame, BitVec.ofNat_toNat]
    simp

end Debouncing

/-- Settles O21: the emission leaves DEB - 1 on the timer, and each further step counts it down by 1. -/
theorem debounceWindow : Obligations.DebounceWindow := by
  intro k raw s raws next _ hemit
  have hreload := hemit.timer_reloaded
  have htimer (hlen : raws.length ≤ s.cfg.deb - 1) :
      (debounceRun k (raw :: raws) s).dtimer[k] = s.cfg.deb - 1 - raws.length := by
    rw [debounceRun, debounceRun_of_timer_running (hlen.trans_eq hreload.symm), hreload]
    simp
  refine ⟨fun hlen ⟨_, hzero⟩ => ?_, fun hlen => and_iff_left ?_⟩
  · rw [htimer hlen.le] at hzero
    omega
  · rw [htimer hlen.le, hlen, Nat.sub_self]

/-- Settles O22: the run down to timer 0 reports nothing, and the step there reports what it reads. -/
theorem deferredReport : Obligations.DeferredReport := by
  intro k s raws next hlen
  have hrun := debounceRun_of_timer_running hlen.le
  have hzero : (debounceRun k raws s).dtimer[k] = 0 := by simp [hrun, hlen]
  have hstep := debounceStep_of_timer_zero next hzero
  rw [debounceRun_append]
  rw [hrun] at hstep ⊢
  exact ⟨rfl, rfl, hstep⟩

/-! ## The activity indicator (R190, R191) -/

section Activity
variable {s : State}

/-- What a CYCEND leaves of the sampler, before its result is given (R190). -/
def cycleEnded (s : State) : State :=
  { s with actTimer := if s.cycEmit then s.cfg.actCycles else s.actTimer - 1, cycEmit := false }

theorem exec_cycend (hr : Ready .cycend s) : exec .cycend s = .next (complete 0 (cycleEnded s)) :=
  hr.exec_eq (f := fun s => complete 0 (cycleEnded s)) rfl

/-- A CYCEND lets the next one through. -/
theorem Ready.complete_cycleEnded (hr : Ready .cycend s) : Ready .cycend (complete 0 (cycleEnded s)) := { hr with }

/-- Cycle ends without an emission count act_timer down. -/
theorem cycendRun_of_no_emission (hr : Ready .cycend s) (hquiet : s.cycEmit = false) (n : Nat) :
    ∃ t, cycendRun n s = some t ∧ t.actTimer = s.actTimer - n := by
  induction n generalizing s with
  | zero => exact ⟨s, rfl, rfl⟩
  | succ n ih =>
    obtain ⟨t, hrun, htimer⟩ := ih hr.complete_cycleEnded rfl
    refine ⟨t, by rw [cycendRun, exec_cycend hr]; exact hrun, htimer.trans ?_⟩
    simp [cycleEnded, hquiet, Nat.sub_sub, Nat.add_comm 1]

end Activity

/-- Settles O23: the body is the reload or the countdown. -/
theorem cycendUpdatesActivity : Obligations.CycendUpdatesActivity := fun _ hr =>
  ⟨_, exec_cycend hr, Effect.cycend.portDone 0, rfl, rfl, rfl⟩

/-- Settles O24: the first cycle end loads ACT_CYCLES and the rest count it down; act_timer has no other writer. -/
theorem activityLastsItsCycles : Obligations.ActivityLastsItsCycles := by
  refine ⟨fun s n hr hemit => ?_, fun i s t hi hexec => ?_⟩
  · obtain ⟨t, hrun, htimer⟩ := cycendRun_of_no_emission hr.complete_cycleEnded rfl n
    have hreload : (cycleEnded s).actTimer = s.cfg.actCycles := if_pos hemit
    rw [complete_actTimer, hreload] at htimer
    refine ⟨t, by rw [cycendRun, exec_cycend hr]; exact hrun, ?_⟩
    rw [activityOut, htimer]
    simp only [Nat.sub_ne_zero_iff_lt]
  · obtain ⟨_, _, _, _, _, _, hact, _⟩ := stateHasItsWritersOnly i s t hexec
    have hsame : t.actTimer = s.actTimer := not_not.mp fun hne => hi (hact hne).1
    rw [activityOut, hsame, activityOut]

end Sys2Proof.Machine
end

section
/-! PROOF. The encoder's bytes and its output stage (spec/42_encoder.md): the ranges of header and payload bytes, one stage
push in each branch, and the pushes of a whole packet. -/

namespace Sys2Proof.Machine

/-! ## Bit 7 of the encoder's bytes (R227) -/

/-- Bit 7 splits the bytes at 128. -/
theorem getLsbD_seven (b : Byte) : b.getLsbD 7 = decide (128 ≤ b.toNat) := BitVec.msb_eq_decide b

theorem toNat_headerByte_analog (ch : BitVec 6) (v : BitVec 14) :
    (headerByte (.analog ch v)).toNat = 128 + ch.toNat := by
  rw [headerByte_analog, toNat_hdrAByte]

theorem toNat_headerByte_digital (ch : BitVec 6) (v : BitVec 7) :
    (headerByte (.digital ch v)).toNat = 192 + ch.toNat := by
  rw [headerByte_digital, toNat_hdrDByte]

theorem headerByte_ge (e : Event) : 128 ≤ (headerByte e).toNat := by
  cases e with
  | analog ch v => rw [toNat_headerByte_analog]; omega
  | digital ch v => rw [toNat_headerByte_digital]; omega

theorem toNat_digitalPayload (v : BitVec 7) : (v.setWidth 8).toNat = v.toNat :=
  BitVec.toNat_setWidth_of_le (by decide)

theorem payloadBytes_lt {e : Event} {p : Byte} (hp : p ∈ payloadBytes e) : p.toNat < 128 := by
  cases e with
  | analog ch v =>
    simp only [payloadBytes, List.mem_cons, List.not_mem_nil, or_false] at hp
    rcases hp with rfl | rfl
    · rw [toNat_highGroup]; omega
    · rw [toNat_lowGroup]; omega
  | digital ch v =>
    obtain rfl := List.mem_singleton.mp hp
    rw [toNat_digitalPayload]; exact v.isLt

/-- Settles O29: a header is 128 or 192 plus its channel, and a payload byte is a 7-bit group of the value. -/
theorem headersAloneHaveBit7 : Obligations.HeadersAloneHaveBit7 := by
  refine ⟨fun e => ⟨?_, fun p hp => ?_⟩, fun e he => ?_⟩
  · rw [getLsbD_seven, decide_eq_true (headerByte_ge e)]
  · rw [getLsbD_seven, decide_eq_false (payloadBytes_lt hp).not_ge]
  · cases e with
    | analog ch v =>
      obtain ⟨hch, hv⟩ := he
      have hhead := toNat_headerByte_analog ch v
      have hhigh := toNat_highGroup v
      have hlow := toNat_lowGroup v
      exact ⟨by omega, by omega, _, _, rfl, by omega, by omega⟩
    | digital ch v =>
      obtain ⟨hch, hv⟩ := he
      have hhead := toNat_headerByte_digital ch v
      exact ⟨by omega, by omega, _, rfl, (toNat_digitalPayload v).trans_le hv⟩

/-! ## One stage push (R224) -/

section StagePush
variable {s : State}

theorem stagePush_of_full (hbusy : stageBusy s = true) (hfull : s.tx.isFull s.cfg.cTx = true) :
    stagePush s = holdStage s := by
  simp [stagePush, hbusy, hfull]

/-- With room the byte enc_buf[enc_pos] is put in the TX ring and the stage advances. -/
theorem stagePush_of_room {b : Byte} (hbusy : stageBusy s = true) (hroom : s.tx.isFull s.cfg.cTx = false)
    (hb : s.encBuf[s.encPos]? = some b) :
    stagePush s = clearStageHold (stageAdvance { s with tx := s.tx.put s.cfg.cTx b }) := by
  obtain ⟨hpos, rfl⟩ := Vector.getElem?_eq_some_iff.mp hb
  have hbyte : stageByte s = s.encBuf[s.encPos] := by
    simp only [stageByte, Fin.getElem_fin, Fin.val_ofNat, Nat.mod_eq_of_lt hpos]
  simp [stagePush, hbusy, hroom, hbyte]

/-- With the stage busy, FG's turn is the stage push. -/
theorem runMove_of_stage_busy {m : Move} (hbusy : stageBusy s = true) (hm : m = .stage ∨ m = .run .fg) :
    runMove m s = .next (stagePush s) := by
  rcases hm with rfl | rfl
  · rfl
  · exact if_pos ⟨rfl, hbusy⟩

theorem holdStage_fg (s : State) :
    (holdStage s).pending.fg = if s.pending.fg = none then some ⟨.stage, .txFull⟩ else s.pending.fg := by
  cases hp : s.pending.fg <;> simp [holdStage, hp]

/-- A performed stage push leaves FG's slot to an operation of its stream (log 6). -/
theorem clearStageHold_fg_of_item {it : Item} {why : HoldReason} (hp : s.pending.fg = some ⟨.item it, why⟩) :
    (clearStageHold s).pending.fg = s.pending.fg := by
  simp only [clearStageHold, hp]

theorem clearStageHold_fg_of_not_item (hp : ∀ it why, s.pending.fg ≠ some ⟨.item it, why⟩) :
    (clearStageHold s).pending.fg = none := by
  rcases hfg : s.pending.fg with _ | ⟨_ | it, why⟩
  · simp only [clearStageHold, hfg]
  · simp only [clearStageHold, hfg]
  · exact (hp it why hfg).elim

/-- Advancing writes enc_len and enc_pos alone. -/
theorem stageAdvance_eq (s : State) :
    stageAdvance s = { s with encLen := (stageAdvance s).encLen, encPos := (stageAdvance s).encPos } := by
  unfold stageAdvance
  split <;> rfl

end StagePush

/-- Settles O26: the two branches are the hold on a full ring, and the put of the stage's byte with the stage advanced. -/
theorem stagePushesNextByte : Obligations.StagePushesNextByte := by
  intro s b m hbusy hm hb
  refine ⟨_, runMove_of_stage_busy hbusy hm, ?_⟩
  split
  case isTrue hfull =>
    rw [stagePush_of_full hbusy (Ring.isFull_of_eq hfull)]
    exact ⟨rfl, rfl, rfl, rfl, holdStage_fg s⟩
  case isFalse hroom =>
    rw [stagePush_of_room hbusy (Ring.isFull_of_ne hroom) hb, stageAdvance_eq]
    refine ⟨rfl, rfl, rfl, Ring.pushedByte_put _ b s.tx, ?_, fun it why => clearStageHold_fg_of_item,
      clearStageHold_fg_of_not_item, rfl⟩
    simp only [clearStageHold_encLen, clearStageHold_encPos, stageAdvance_encLen, stageAdvance_encPos]
    split <;> exact ⟨rfl, rfl⟩

/-! ## The stage pushes of a packet (R224, R229) -/

/-- bs are the bytes the stage has still to push, in order; with none left the stage is at its empty values. -/
structure StageOwes (bs : List Byte) (s : State) : Prop where
  bytes : ∀ k < bs.length, s.encBuf[s.encPos + k]? = bs[k]?
  len : s.encLen = s.encPos + bs.length
  pos : bs = [] → s.encPos = 0

section Packet
variable {s : State} {b : Byte} {bs : List Byte}

theorem StageOwes.busy (h : StageOwes (b :: bs) s) : stageBusy s = true := by
  have hlen := h.len
  rw [List.length_cons] at hlen
  exact decide_eq_true (by omega)

/-- With room the push puts the first byte owed, and of the pending slots only FG's is written. -/
theorem StageOwes.stagePush_eq (h : StageOwes (b :: bs) s) (hroom : s.tx.isFull s.cfg.cTx = false) :
    ∃ len pos fg,
      stagePush s = { s with tx := s.tx.put s.cfg.cTx b, encLen := len, encPos := pos,
                             pending := { s.pending with fg := fg } } := by
  rw [stagePush_of_room h.busy hroom (h.bytes 0 (Nat.zero_lt_succ _)), stageAdvance_eq]
  exact ⟨_, _, _, rfl⟩

/-- After a push the stage owes the rest. -/
theorem StageOwes.stagePush (h : StageOwes (b :: bs) s) (hroom : s.tx.isFull s.cfg.cTx = false) :
    StageOwes bs (stagePush s) := by
  have hlen := h.len
  rw [List.length_cons] at hlen
  have hlast : s.encPos + 1 = s.encLen ↔ bs = [] := by rw [← List.length_eq_zero_iff]; omega
  rw [stagePush_of_room h.busy hroom (h.bytes 0 (Nat.zero_lt_succ _))]
  by_cases hbs : bs = []
  · subst hbs
    exact ⟨nofun, by simp [hlast], by simp [hlast]⟩
  · refine ⟨fun k hk => ?_, ?_, fun hnil => (hbs hnil).elim⟩
    · have hnext := h.bytes (k + 1) (Nat.succ_lt_succ hk)
      rw [List.getElem?_cons_succ, ← Nat.add_assoc, Nat.add_right_comm] at hnext
      simpa [hlast, hbs] using hnext
    · simp only [clearStageHold_encLen, clearStageHold_encPos, stageAdvance_encLen, stageAdvance_encPos, hlast, hbs,
        if_false]
      omega

/-- With room for all bytes owed, as many stage pushes push them onto the TX ring and empty the stage. -/
theorem StageOwes.iterate_stagePush (h : StageOwes bs s) (hring : RingOk s.cfg.cTx s.tx)
    (hroom : s.tx.occ s.cfg.cTx + bs.length ≤ s.cfg.cTx - 1) :
    ∃ fg, Machine.stagePush^[bs.length] s =
      { s with tx := (Ring.pushMany s.cfg.cTx bs s.tx).2, encLen := 0, encPos := 0,
               pending := { s.pending with fg := fg } } := by
  induction bs generalizing s with
  | nil =>
    have hpos : s.encPos = 0 := h.pos rfl
    have hlen : s.encLen = 0 := h.len.trans hpos
    exact ⟨s.pending.fg, congrArg₂ (fun len pos => { s with encLen := len, encPos := pos }) hlen hpos⟩
  | cons b bs ih =>
    rw [List.length_cons] at hroom
    have hput : s.tx.isFull s.cfg.cTx = false := by
      rw [hring.isFull_eq_decide, decide_eq_true (by omega)]; rfl
    have howes := h.stagePush hput
    obtain ⟨len, pos, fg, hpush⟩ := h.stagePush_eq hput
    have hocc := Ring.occ_put b hring.head_lt hring.tail_lt hput
    rw [hpush] at howes
    obtain ⟨fg', hrest⟩ := ih howes (hring.put b hput) (by simp only [hocc]; omega)
    refine ⟨fg', ?_⟩
    rw [List.length_cons, Function.iterate_succ_apply, hpush, hrest, Ring.pushMany, Ring.push_of_room b hput]

/-- A push of bytes that all fit appends them. -/
theorem RingOk.contents_pushMany_of_fit {C : Nat} {r : Ring} (h : RingOk C r)
    (hfit : r.occ C + bs.length ≤ C - 1) :
    (Ring.pushMany C bs r).2.contents C = r.contents C ++ bs.map some := by
  rw [h.contents_pushMany, List.take_of_length_le (by simpa using hfit)]

end Packet

/-- Settles O27: the loaded stage owes the packet's bytes, and a ring with room takes each of them. -/
theorem stagePushesWholePacket : Obligations.StagePushesWholePacket := by
  intro e s hring hpos hlen hbytes hroom
  have howes : StageOwes (wireBytes e) s :=
    ⟨fun k hk => by rw [hpos, Nat.zero_add]; exact hbytes k (hlen ▸ hk), by rw [hpos, Nat.zero_add, hlen], fun _ => hpos⟩
  rw [hlen] at hroom
  obtain ⟨fg, hpush⟩ := howes.iterate_stagePush hring hroom
  rw [hlen, hpush]
  exact ⟨_, rfl, hring.contents_pushMany_of_fit hroom, rfl, rfl, rfl, rfl, rfl⟩

/-! ## FG behind a busy stage (R225) -/

/-- Settles O28: check (4) of R283 holds the operation before its own effect. -/
theorem encBusyHoldsForeground : Obligations.EncBusyHoldsForeground := by
  intro i s hw ho hfg hbusy
  have hi : ∀ low, i ≠ .reservedOp0 low := by rintro low rfl; simp [owns, owners] at ho
  obtain ⟨body, e⟩ := exec_eq_guarded hi s
  exact ⟨_, e.trans (guarded_of_stage_busy hw ho hfg hbusy), held_hold i .encBusy s⟩

end Sys2Proof.Machine
end

section
/-! PROOF. The decoder (spec/43_decoder.md): DECB and DECNEXT in each branch, streams of packets with one byte lost, and
the decoder's registers, which every step keeps clean. -/

namespace Sys2Proof.Machine

/-! ## DECB and DECNEXT, once the checks let them through (R241, R246) -/

/-- Settles O30: DECB feeds the decoder its byte, which makes the table's transition. -/
theorem decbFollowsTable : Obligations.DecbFollowsTable := fun b s hr =>
  ⟨_, hr.exec_eq rfl, decoderFrame_feedDecoder [b] s, decoderStep_feedDecoder b s⟩

section Decnext
variable {s : State} {b : Byte}

theorem exec_decnext_of_written (hr : Ready .decnext s) (hne : s.rx.head ≠ s.rx.tail)
    (hb : Memory.read s.rx.buf s.rx.tail = some b) :
    exec .decnext s =
      .next (feedDecoder [b] { s with rx := { s.rx with tail := (s.rx.tail + 1) % s.cfg.cRx } }) := by
  simp only [exec, execDecnext, hr.pass, Ring.pop_of_written hne hb]

theorem exec_decnext_of_end (hr : Ready .decnext s) (hempty : s.rx.head = s.rx.tail) (heos : s.eos = true) :
    exec .decnext s = .next (complete endOfStreamWord (endOfStream s)) := by
  simp only [exec, execDecnext, hr.pass, Ring.pop_of_empty hempty, heos, if_true]

theorem exec_decnext_of_empty (hr : Ready .decnext s) (hempty : s.rx.head = s.rx.tail) (heos : s.eos = false) :
    exec .decnext s = .next (hold .decnext .rxEmpty s) := by
  simp only [exec, execDecnext, hr.pass, Ring.pop_of_empty hempty, heos, Bool.false_eq_true, if_false]

theorem exec_decnext_of_unwritten (hr : Ready .decnext s) (hne : s.rx.head ≠ s.rx.tail)
    (hb : Memory.read s.rx.buf s.rx.tail = none) : exec .decnext s = .fault (.unwrittenSlot .rx s.rx.tail) := by
  simp only [exec, execDecnext, hr.pass, Ring.pop_of_unwritten hne hb]

end Decnext

/-- The decoder does not touch the RX ring. -/
theorem feedDecoder_rx (bs : List Byte) (s : State) : (feedDecoder bs s).rx = s.rx := by
  have hframe : feedDecoder bs s = _ := decoderFrame_feedDecoder bs s
  rw [hframe]

/-- Settles O33: a pop finds a byte, nothing, or a slot nothing wrote; with nothing, `eos` decides. -/
theorem decnextReadsOrEndsOrHolds : Obligations.DecnextReadsOrEndsOrHolds := by
  refine fun s hr => ⟨fun b hne hb => ?_, fun hempty heos => ?_, fun hempty heos => ?_, exec_decnext_of_unwritten hr⟩
  · refine ⟨_, exec_decnext_of_written hr hne hb, ?_, decoderStep_feedDecoder b _, ?_⟩ <;> rw [feedDecoder_rx]
    · exact ⟨rfl, rfl, rfl⟩
    · exact decoderFrame_feedDecoder [b] _
  · exact ⟨_, exec_decnext_of_end hr hempty heos, portDone_complete _ rfl rfl rfl, rfl⟩
  · exact ⟨_, exec_decnext_of_empty hr hempty heos, held_hold _ _ s⟩

/-! ## An event's wire bytes (R73, R223) -/

/-- An analog value is its two 7-bit groups joined again (R73). -/
theorem joinGroups_extractLsb' (v : BitVec 14) :
    (v.extractLsb' 7 7).setWidth 14 <<< 7 ||| (v.extractLsb' 0 7).setWidth 14 = v := by
  rw [joinGroups_eq_ofNat]
  apply BitVec.eq_of_toNat_eq
  simp only [BitVec.toNat_ofNat, BitVec.extractLsb'_toNat, Nat.shiftRight_eq_div_pow]
  omega

theorem wireBytes_analog (ch : BitVec 6) (v : BitVec 14) :
    wireBytes (.analog ch v) = [hdrAByte ch, payloadByte (v.extractLsb' 7 7), payloadByte (v.extractLsb' 0 7)] := by
  have hhigh : (v >>> 7).setWidth 8 = payloadByte (v.extractLsb' 7 7) := by
    apply BitVec.eq_of_toNat_eq
    rw [toNat_highGroup, toNat_payloadByte, BitVec.extractLsb'_toNat, Nat.shiftRight_eq_div_pow]
    omega
  have hlow : (v &&& 0x7F).setWidth 8 = payloadByte (v.extractLsb' 0 7) := by
    apply BitVec.eq_of_toNat_eq
    rw [toNat_lowGroup, toNat_payloadByte, BitVec.extractLsb'_toNat]
    rfl
  rw [wireBytes, headerByte_analog, payloadBytes, hhigh, hlow]

theorem wireBytes_digital (ch : BitVec 6) (v : BitVec 7) :
    wireBytes (.digital ch v) = [hdrDByte ch, payloadByte v] := by
  have hvalue : v.setWidth 8 = payloadByte v := by
    apply BitVec.eq_of_toNat_eq
    rw [toNat_digitalPayload, toNat_payloadByte]
  rw [wireBytes, headerByte_digital, payloadBytes, hvalue]

/-! ## Bytes fed one after another (R249, R250) -/

theorem decodedEvents_append (bs cs : List Byte) (s : State) :
    decodedEvents (bs ++ cs) s =
      ((decodedEvents bs s).1 ++ (decodedEvents cs (decodedEvents bs s).2).1,
        (decodedEvents cs (decodedEvents bs s).2).2) := by
  induction bs generalizing s with
  | nil => rfl
  | cons b bs ih => simp only [List.cons_append, decodedEvents, ih, List.append_assoc]

/-- A whole packet gives its event from any decoder state, since its header starts the packet afresh. -/
theorem decodedEvents_wireBytes (e : Event) (s : State) :
    decodedEvents (wireBytes e) s = ([e], afterEvent e s) := by
  cases e with
  | analog ch v =>
    simp only [wireBytes_analog, decodedEvents, decodeByte_hdrAByte, decodeByte_payloadByte, decodePayload,
      joinGroups_extractLsb']
    rfl
  | digital ch v =>
    simp only [wireBytes_digital, decodedEvents, decodeByte_hdrDByte, decodeByte_payloadByte, decodePayload]
    rfl

/-- An analog header awaits two payload bytes: the first gives no event. -/
theorem decodedEvents_analogUnfinished (c : BitVec 6) (p : BitVec 7) (s : State) :
    (decodedEvents [hdrAByte c, payloadByte p] s).1 = [] := by
  simp only [decodedEvents, decodeByte_hdrAByte, decodeByte_payloadByte, decodePayload]
  rfl

/-- A digital header gives no event itself. -/
theorem decodedEvents_digitalUnfinished (c : BitVec 6) (s : State) : (decodedEvents [hdrDByte c] s).1 = [] := by
  simp only [decodedEvents, decodeByte_hdrDByte]
  rfl

/-- Settles O34: the packet gives its event, and without its last byte none. -/
theorem decodeOfEncodedEvent : Obligations.DecodeOfEncodedEvent := by
  intro e s
  rw [decodedEvents_wireBytes]
  refine ⟨rfl, rfl, ?_⟩
  cases e with
  | analog ch v => rw [wireBytes_analog]; exact decodedEvents_analogUnfinished _ _ s
  | digital ch v => rw [wireBytes_digital]; exact decodedEvents_digitalUnfinished _ s

/-! ## Streams of packets, and one byte lost (R250, R251) -/

/-- A stream of whole packets gives its events from any decoder state. -/
theorem decodedEvents_stream (es : List Event) (s : State) : (decodedEvents (es.flatMap wireBytes) s).1 = es := by
  induction es generalizing s with
  | nil => rfl
  | cons e es ih =>
    simp only [List.flatMap_cons, decodedEvents_append, decodedEvents_wireBytes, ih, List.singleton_append]

/-- In Idle the decoder discards a payload byte (R248). -/
theorem decodeByte_payload_of_idle {b : Byte} {s : State} (hb : b.toNat < 128) (hs : s.decState = .idle) :
    decodeByte b s = (s, none) := by
  have h7 : b.getLsbD 7 = false := by rw [getLsbD_seven, decide_eq_false hb.not_ge]
  simp only [decodeByte, decodePayload, h7, hs, Bool.false_eq_true, if_false]

theorem decodedEvents_payload_of_idle {bs : List Byte} {s : State} (hbs : ∀ b ∈ bs, b.toNat < 128)
    (hs : s.decState = .idle) : decodedEvents bs s = ([], s) := by
  induction bs with
  | nil => rfl
  | cons b bs ih =>
    obtain ⟨hb, hbs⟩ := List.forall_mem_cons.mp hbs
    simp only [decodedEvents, decodeByte_payload_of_idle hb hs, ih hbs, Option.toList_none, List.append_nil]

/-- A packet that lost a byte gives no event from Idle: without its header its payload is discarded, and without a payload
byte it stays unfinished. -/
theorem decodedEvents_damagedPacket (e : Event) {n : Nat} {s : State} (hn : n < (wireBytes e).length)
    (hs : s.decState = .idle) : (decodedEvents ((wireBytes e).eraseIdx n) s).1 = [] := by
  cases n with
  | zero =>
    have hpayload : decodedEvents (payloadBytes e) s = ([], s) :=
      decodedEvents_payload_of_idle (fun _ => payloadBytes_lt) hs
    exact congrArg Prod.fst hpayload
  | succ n =>
    cases e with
    | analog ch v =>
      rw [wireBytes_analog] at hn ⊢
      match n, hn with
      | 0, _ | 1, _ => exact decodedEvents_analogUnfinished ch _ s
    | digital ch v =>
      rw [wireBytes_digital] at hn ⊢
      match n, hn with
      | 0, _ => exact decodedEvents_digitalUnfinished ch s

/-- One lost byte costs the event of its own packet: those before end in Idle, those after start afresh. -/
theorem decodedEvents_eraseIdx_sublist (es : List Event) (n : Nat) {s : State} (hs : s.decState = .idle) :
    (decodedEvents ((es.flatMap wireBytes).eraseIdx n) s).1.Sublist es := by
  induction es generalizing n s with
  | nil => exact List.Sublist.refl []
  | cons e es ih =>
    rw [List.flatMap_cons]
    rcases Nat.lt_or_ge n (wireBytes e).length with hn | hn
    · rw [List.eraseIdx_append_of_lt_length hn, decodedEvents_append, decodedEvents_damagedPacket e hn hs,
        decodedEvents_stream]
      exact List.sublist_cons_self e es
    · rw [List.eraseIdx_append_of_length_le hn, decodedEvents_append, decodedEvents_wireBytes]
      have hrest := ih (n - (wireBytes e).length) (s := afterEvent e s) rfl
      exact hrest.cons_cons e

/-- Settles O35: the whole stream gives its events, the stream less a byte a sublist of them. -/
theorem oneLostByteOnlyRemovesEvents : Obligations.OneLostByteOnlyRemovesEvents := fun es s n hs =>
  ⟨decodedEvents_stream es s, decodedEvents_eraseIdx_sublist es n hs⟩

/-! ## The decoder's registers stay clean (R241, R247, R310) -/

/-- The decoder's three registers are the same in both states. -/
structure SameDecoder (s t : State) : Prop where
  state : t.decState = s.decState
  ch : t.decCh = s.decCh
  hi : t.decHi = s.decHi

theorem DecoderClean.of_same {s t : State} (h : DecoderClean s) (hsame : SameDecoder s t) : DecoderClean t := by
  simpa only [DecoderClean, hsame.state, hsame.ch, hsame.hi] using h

/-- Only the operations that feed the decoder write its registers (R50). -/
theorem Writes.sameDecoder {s u : State} {i : Instr} (h : Writes s i u) (hi : ¬ FeedsDecoder i) :
    SameDecoder s u := by
  cases h with
  | feeds _ _ _ _ _ feeds => exact (hi feeds).elim
  | decnext => exact (hi (.inr (.inl rfl))).elim
  | _ => exact ⟨rfl, rfl, rfl⟩

theorem SameBlock.sameDecoder {s t : State} (h : SameBlock s t) : SameDecoder s t := by
  rw [h]; exact ⟨rfl, rfl, rfl⟩

theorem stagePush_sameDecoder (s : State) : SameDecoder s (stagePush s) := by
  rcases stagePush_cases s with ⟨_, e⟩ | ⟨_, _, e⟩ | ⟨_, _, e⟩
  all_goals rw [e]; constructor <;> simp

/-- A header clears the high group, and each payload byte that completes an event clears both registers. -/
theorem DecoderClean.decodeByte {s : State} (h : DecoderClean s) (b : Byte) : DecoderClean (decodeByte b s).1 := by
  unfold Machine.decodeByte
  split
  · unfold decodeHeader
    split <;> exact rfl
  · unfold decodePayload
    split
    case h_1 => exact h
    case h_2 => exact True.intro
    case h_3 | h_4 => exact ⟨rfl, rfl⟩

theorem DecoderClean.decodeBytes {s : State} (h : DecoderClean s) (bs : List Byte) :
    DecoderClean (decodeBytes bs s).1 := by
  induction bs generalizing s with
  | nil => exact h
  | cons b bs ih =>
    cases bs with
    | nil => exact h.decodeByte b
    | cons c cs => exact ih (h.decodeByte b)

/-- A performed operation feeds the decoder, ends its stream, or leaves its registers. -/
theorem Effect.keepsDecoderClean {s u : State} {i : Instr} (he : Effect s i u) (h : DecoderClean s) :
    DecoderClean u := by
  have hwrites := he.writes
  cases he with
  | decb | hdrA | hdrD | payload | pktA | pktD => exact h.decodeBytes _
  | decnext b ne =>
    refine DecoderClean.decodeBytes ?_ [b]
    exact h.of_same ⟨rfl, rfl, rfl⟩
  | streamEnd => exact ⟨rfl, rfl⟩
  | _ => exact h.of_same (hwrites.sameDecoder (by simp [FeedsDecoder]))

theorem exec_keepsDecoderClean {i : Instr} {s t : State} (h : DecoderClean s) (he : exec i s = .next t) :
    DecoderClean t := by
  cases exec_next he with
  | refused | raised | held => exact h.of_same ⟨rfl, rfl, rfl⟩
  | performed w u ready effect => exact (effect.keepsDecoderClean h).of_same ⟨rfl, rfl, rfl⟩

theorem BlockStep.keepsDecoderClean {s t : State} (hs : BlockStep s t) (h : DecoderClean s) : DecoderClean t := by
  cases hs with
  | nothing => exact h
  | stage => exact h.of_same (stagePush_sameDecoder s)
  | reset eos => exact ⟨rfl, rfl⟩
  | illegal why => exact h.of_same ⟨rfl, rfl, rfl⟩
  | performs i t he => exact exec_keepsDecoderClean h he

/-- Settles O51: a step is one change of the block, which keeps the decoder clean, between changes outside it. -/
theorem stepKeepsDecoderClean : Obligations.StepKeepsDecoderClean := by
  intro s t h hstep
  obtain ⟨u, v, hbefore, hblock, hafter⟩ := step_next hstep
  exact (hblock.keepsDecoderClean (h.of_same hbefore.sameDecoder)).of_same hafter.sameDecoder

end Sys2Proof.Machine
end

section
/-! PROOF. Ownership of the command ports (spec/60_exceptions.md R281, R282): the table's single owners, the two rows every
agent owns, and what a command of the wrong agent does. -/

namespace Sys2Proof.Machine

/-! ## The ownership table (R281) -/

/-- An operation with one owner is owned by that agent alone. -/
theorem owns_iff_of_single {i : Instr} {owner : Agent} (h : owners i = [owner]) (a : Agent) :
    owns i a = true ↔ a = owner := by
  simp [owns, h]

/-- The two occupancy operations are every agent's. -/
theorem owns_rxavail_and_txavail (a : Agent) : owns .rxavail a = true ∧ owns .txavail a = true := by
  cases a <;> exact ⟨rfl, rfl⟩

/-- Settles O38: every row but the two occupancy operations has one owner. -/
theorem ownershipTable : Obligations.OwnershipTable :=
  ⟨fun a _ => owns_iff_of_single rfl a,
    fun a => ⟨owns_iff_of_single rfl a, owns_iff_of_single rfl a⟩,
    fun a _ => owns_iff_of_single rfl a,
    fun a => ⟨owns_iff_of_single rfl a, owns_iff_of_single rfl a⟩,
    fun a _ _ => ⟨owns_iff_of_single rfl a, owns_iff_of_single rfl a⟩,
    fun a _ _ => ⟨owns_iff_of_single rfl a, owns_iff_of_single rfl a⟩,
    owns_iff_of_single rfl, fun a _ => owns_iff_of_single rfl a, owns_iff_of_single rfl,
    owns_rxavail_and_txavail⟩

/-! ## A command of the wrong agent (R282) -/

/-- The ownership check comes before the operation's own hold and effect, so the whole step is `raise` (R282, R283). -/
theorem exec_of_not_owned {i : Instr} {s : State} (hw : WellFormed i) (hres : ∀ low, i ≠ .reservedOp0 low)
    (ho : owns i s.issuer = false) : exec i s = .next (raiseViolation (.ownershipViolation i s.issuer) s) := by
  obtain ⟨body, hexec⟩ := exec_eq_guarded hres s
  exact hexec.trans (guarded_of_not_owned hw ho)

/-- Settles O37: the step is `raise`, which writes its latch and the issuer's slot alone. -/
theorem wrongAgentRaisesViolation : Obligations.WrongAgentRaisesViolation := by
  intro i s _ hw hres ho
  obtain ⟨_, hothers⟩ := portCleared_raise (.ownershipViolation i s.issuer) s
  exact ⟨_, exec_of_not_owned hw hres ho, by simp, fun hclear => by simp [hclear], rfl, hothers⟩

end Sys2Proof.Machine
end

section
/-! PROOF. Reset and what the sampler does first after it (spec/70_hazards.md R310, R314). -/

namespace Sys2Proof.Machine

/-- Settles O42: the move is the reset operation, which writes each of these registers and neither latch. -/
theorem resetSetsBlock : Obligations.ResetSetsBlock := by
  intro e s
  have hanalog (i : Fin 6) : (resetBlock e s).rawLatest[i] = 0 ∧ (resetBlock e s).acc[i] = 0 := by simp [resetBlock]
  have hdigital (j : Fin 10) : (resetBlock e s).rep[j] = 0 ∧ (resetBlock e s).dtimer[j] = 0 := by simp [resetBlock]
  have hpending (a : Agent) : (resetBlock e s).pending.get a = none := PerAgent.get_all none a
  exact ⟨resetBlock e s, rfl, rfl, rfl, rfl, rfl, hanalog, hdigital, rfl, rfl, rfl, rfl, rfl, rfl, rfl, rfl, hpending,
    rfl, rfl, rfl⟩

/-- A smoothing step records the new value exactly if it differs from the accumulator (R181). -/
theorem smoothStep_history_eq_ite (k : Fin 6) (raw : BitVec 10) (s : State) :
    (smoothStep k raw s).history =
      if smooth s.cfg raw s.acc[k] = s.acc[k] then s.history
      else s.history ++ [.emit (.analog (BitVec.ofNat 6 k) (BitVec.ofNat 14 (smooth s.cfg raw s.acc[k]).toNat))] := by
  by_cases hsame : smooth s.cfg raw s.acc[k] = s.acc[k]
  · rw [smoothStep_of_eq hsame, if_pos hsame]
  · rw [smoothStep_of_ne hsame, if_neg hsame, BitVec.ofNat_toNat, emitSample_history]

/-- From a zero accumulator the smoothed value is the reading's own share. -/
theorem toNat_smooth_zero {c : Config} (hc : c.Valid) (raw : BitVec 10) :
    (smooth c raw 0).toNat = raw.toNat * c.w / c.den := by
  simp [toNat_smooth hc]

/-- From a zero accumulator smoothing stays at 0 exactly below the threshold of R314. -/
theorem smooth_zero_eq_zero_iff {c : Config} (hc : c.Valid) (raw : BitVec 10) :
    smooth c raw 0 = 0 ↔ raw.toNat * c.w < c.den := by
  rw [← BitVec.toNat_inj, toNat_smooth_zero hc]
  exact Nat.div_eq_zero_iff_lt (hc.w_pos.trans_le hc.w_le_den)

/-- Settles O44: with the timer at 0 a level is recorded if it is not the reported 0; a reading is recorded if smoothing
lifts the accumulator off 0. -/
theorem firstSamplesAfterReset : Obligations.FirstSamplesAfterReset := by
  intro s hc
  refine ⟨fun j hrep htimer => ?_, fun i r hacc => ?_⟩
  · obtain ⟨_, hone⟩ := debounceStep_of_timer_zero 1 htimer
    obtain ⟨_, hzero⟩ := debounceStep_of_timer_zero 0 htimer
    rw [hrep] at hone hzero
    exact ⟨hone.trans (if_neg (by decide)), hzero.trans (if_pos rfl)⟩
  · have hhistory := smoothStep_history_eq_ite i r s
    have hstored := smoothStep_acc i r s
    rw [hacc] at hhistory hstored
    split
    · next hreached =>
      have hmoved : smooth s.cfg r 0 ≠ 0 := fun h => ((smooth_zero_eq_zero_iff hc r).mp h).not_ge hreached
      rw [hhistory, if_neg hmoved, toNat_smooth_zero hc]
    · next hbelow =>
      have hstays : smooth s.cfg r 0 = 0 := (smooth_zero_eq_zero_iff hc r).mpr (Nat.lt_of_not_le hbelow)
      exact ⟨hhistory.trans (if_pos hstays), hstored.trans hstays⟩

end Sys2Proof.Machine
end
